-- ==== Sys2Proof/Word.lean ====
section
/-! DEFINITION. The word and byte types (spec/00_scope.md R6, R10): every state, working-vector and message word has
64 bits, a byte has 8. All quantities are unsigned. -/

namespace Sys2Proof

/-- A 64-bit word (R6: parameter `W`). -/
abbrev Word := BitVec 64

/-- A byte (R10). -/
abbrev Byte := BitVec 8

end Sys2Proof
end

