-- ==== Sys2Proof/Config.lean ====
section
/-! DEFINITION. What is fixed for the machine: the sizes of spec/00_scope.md R6 and R8, and the FREE VALUES that the
spec leaves unspecified after the reset event (spec/10_state.md R37, spec/70_reset_and_hazards.md R260; log entry 3).
The tables IV and SIGMA are in Machine/Tables.lean. -/

namespace Sys2Proof.Config

/-- Bytes in the message buffer and in one block (R6: `BB`). -/
abbrev blockBytes : Nat := 128

/-- Largest legal output length in bytes (R6: `OUTMAX`). -/
abbrev outMax : Nat := 64

/-- Largest legal key length in bytes (R6: `KEYMAX`). -/
abbrev keyMax : Nat := 64

/-- Rounds per compression (R6: `NR`). -/
abbrev rounds : Nat := 12

/-- Most payload bytes in one UPDATE command (R8: `UPDMAX`). -/
abbrev updMax : Nat := 65535

/-- What `h` holds after the reset event of the given draw: unspecified (R37, R260). -/
opaque freeHash : Nat → Vector Word 8

/-- What the buffer holds at an offset after the reset event of the given draw: unspecified (R37, R260). -/
opaque freeByte : Nat → Nat → Byte

/-- What `c` holds after the reset event of the given draw: unspecified (R37, R260; bounded as log entry 6 says). -/
opaque freeFill : Nat → Fin 129

/-- What `t` holds after the reset event of the given draw: unspecified (R37, R260). -/
opaque freeCounter : Nat → Word

/-- What `outlen` holds after the reset event of the given draw: unspecified (R37, R260; bounded as log entry 6 says). -/
opaque freeOutlen : Nat → Fin 65

end Sys2Proof.Config
end

