-- ==== Sys2Proof/Syntax.lean ====
section
/-! DEFINITION. The decoded commands (spec/30_encoding.md R80, R97): one constructor per row of
spec/opcode_table.json. A word that no row matches is no command (R88): the decoder reports it and the step answers it. -/

namespace Sys2Proof

/-- A host command in the decoded form of R97. -/
inductive Instr where
  /-- INIT (R83, R110): key length and output length as encoded, and the key bytes, first key byte first. -/
  | init (klen nn : Byte) (key : List Byte)
  /-- UPDATE (R84, R130): the data bytes in message order. -/
  | update (data : List Byte)
  /-- FINAL (R85, R150). -/
  | final
  deriving DecidableEq, Repr

end Sys2Proof
end

