-- ==== Sys2Proof/WellFormed.lean ====
section
/-! DEFINITION. Which decoded commands a byte stream can carry (spec/30_encoding.md R87, R97): the payload has the length
the header announces. Out-of-range INIT operands are well-formed (R88): the engine refuses them, the decoder does not. -/

namespace Sys2Proof

/-- The length ties of R97: `len(key) = klen`, and UPDATE's data fit the 16-bit length field (R84). -/
def Instr.wf : Instr → Bool
  | .init klen _ key => key.length == klen.toNat
  | .update data => data.length ≤ Config.updMax
  | .final => true

end Sys2Proof
end

