-- ==== Sys2Proof/Decode.lean ====
section
/-! DEFINITION. The command stream's decoder (spec/30_encoding.md R81 to R90, R93) and, after it, the encoder
(R83 to R85). The decoder is total on any bytes and rejects an illegal word and an incomplete command by name. -/

namespace Sys2Proof

/-- The command word of four header bytes in arrival order, little-endian (R81). -/
def commandWord (s0 s1 s2 s3 : Byte) : BitVec 32 := s3 ++ s2 ++ s1 ++ s0

/-- What a command word says (R86): one of the three formats with its operand fields, or no command. -/
inductive Header where
  | init (klen nn : Byte)
  | update (len : BitVec 16)
  | final
  | illegal
  deriving DecidableEq, Repr

/-- Decode of R86; the operand fields are taken unsigned and unshifted from the word (R83, R84, R93). -/
def decodeHeader (cw : BitVec 32) : Header :=
  if cw &&& 0xFFFF0000#32 = 0x01000000#32 then .init (cw.extractLsb' 8 8) (cw.extractLsb' 0 8)
  else if cw &&& 0xFFFF0000#32 = 0x02000000#32 then .update (cw.extractLsb' 0 16)
  else if cw = 0x03000000#32 then .final
  else .illegal

/-- `plen`, the payload length the header announces (R86, R87). -/
def payloadLength : Header → Nat
  | .init klen _ => klen.toNat
  | .update len => len.toNat
  | .final => 0
  | .illegal => 0

/-- Whether at least `n` bytes have arrived. -/
def hasBytes : Nat → List Byte → Bool
  | 0, _ => true
  | _ + 1, [] => false
  | n + 1, _ :: bs => hasBytes n bs

/-- What stands at the head of the command stream. -/
inductive Fetched where
  /-- a complete command, and the bytes after it -/
  | command (i : Instr) (rest : List Byte)
  /-- a word that matches no format (R88), and the bytes after its four -/
  | illegal (cw : BitVec 32) (rest : List Byte)
  /-- fewer bytes than the command has (R90) -/
  | incomplete
  deriving DecidableEq, Repr

/-- The command a header and its payload make; none for an illegal word (R93, R97). -/
def assembleCommand : Header → List Byte → Option Instr
  | .init klen nn, payload => some (.init klen nn payload)
  | .update _, payload => some (.update payload)
  | .final, _ => some .final
  | .illegal, _ => none

/-- Reads one command from the stream: 4 header bytes, then `plen` payload bytes (R81, R87, R90). -/
def fetch : List Byte → Fetched
  | s0 :: s1 :: s2 :: s3 :: rest =>
    let cw := commandWord s0 s1 s2 s3
    let hd := decodeHeader cw
    let plen := payloadLength hd
    if hasBytes plen rest then
      match assembleCommand hd (rest.take plen) with
      | some i => .command i (rest.drop plen)
      | none => .illegal cw (rest.drop plen)
    else .incomplete
  | _ => .incomplete

/-- The command word of a command (R83 to R85). -/
def encodeWord : Instr → BitVec 32
  | .init klen nn _ => 0x01#8 ++ 0x00#8 ++ klen ++ nn
  | .update data => 0x02#8 ++ 0x00#8 ++ BitVec.ofNat 16 data.length
  | .final => 0x03000000#32

/-- The payload of a command (R83 to R85). -/
def payloadOf : Instr → List Byte
  | .init _ _ key => key
  | .update data => data
  | .final => []

/-- The four header bytes of a command word in stream order (R81). -/
def wordBytes (cw : BitVec 32) : List Byte :=
  [cw.extractLsb' 0 8, cw.extractLsb' 8 8, cw.extractLsb' 16 8, cw.extractLsb' 24 8]

/-- The bytes of a command on the stream: header, then payload (R81, R87). -/
def encode (i : Instr) : List Byte := wordBytes (encodeWord i) ++ payloadOf i

/-- The `n` lowest bytes of a number, lowest first. -/
def lowBytes : Nat → Nat → List Byte
  | 0, _ => []
  | n + 1, w => BitVec.ofNat 8 w :: lowBytes n (w / 256)

/-- The stream bytes of the command whose bits are `w` as spec/opcode_table.json numbers them (bit 0 the least
significant bit of the first header byte), bits above `nbits` zero: as many bytes as its header announces. -/
def tableBytes (nbits w : Nat) : List Byte :=
  let bits := w % 2 ^ nbits
  lowBytes (4 + payloadLength (decodeHeader (BitVec.ofNat 32 bits))) bits

/-- The command the decoder reads from a table word. -/
def decodeTableWord (nbits w : Nat) : Option Instr :=
  match fetch (tableBytes nbits w) with
  | .command i _ => some i
  | .illegal _ _ => none
  | .incomplete => none

end Sys2Proof
end

