-- ==== Sys2Proof/Machine/State.lean ====
section
/-! DEFINITION. The engine's state as plain data (spec/10_state.md R20 to R38), the response stream's items
(spec/30_encoding.md R91, R92), the reasons a step stops, and the state after reset (R37, R261). -/

namespace Sys2Proof.Machine

/-- The lifecycle state (R26); code 3 does not exist. -/
inductive Mode where
  | idle | streaming | finalized
  deriving DecidableEq, Repr

/-- The outcome names of a response (R92). -/
inductive Status where
  | ok | invalidParameter | stateError | illegalCommand | counterOverflow
  deriving DecidableEq, Repr

/-- One response: the triple of R91. -/
structure Response where
  status : Status
  info : Byte
  data : List Byte
  deriving DecidableEq, Repr

/-- The message buffer's bytes by offset 0..127 (R22, R50) as a canonical list: offsets strictly rising, no entry equal
to what an unlisted offset reads as. The operations are in Machine/Ops.lean. -/
abbrev Memory := List Host.Cell

/-- The engine with its two streams and its reset input. -/
structure State where
  /-- the state register file (R20) -/
  h : Vector Word 8
  /-- the message buffer (R22) -/
  buf : Memory
  /-- the buffer fill count, 0..128 (R23) -/
  c : Fin 129
  /-- the byte counter (R24) -/
  t : Word
  /-- the output length in bytes (R25) -/
  outlen : Fin 65
  /-- the lifecycle state (R26) -/
  mode : Mode
  /-- the bytes of the command stream that have arrived and are not yet consumed, first byte first (R81, R87, R90) -/
  input : List Byte
  /-- the response stream: every response emitted, oldest first (R91) -/
  out : List Response
  /-- the reset input, asserted by the host (R239, R260) -/
  resetIn : Bool
  /-- the model's own: how many times free values have been drawn (log entry 3) -/
  draws : Nat
  deriving DecidableEq, Repr

/-- Why a step stops with a fault. -/
inductive Fault where
  /-- Raised by `step`, and by no command's meaning, when the stream holds no complete command (R90, U11: the engine has
  no step, it waits). Safe: the engine does nothing there either. -/
  | incompleteCommand
  deriving DecidableEq, Repr

/-- Why a step is refused. -/
inductive Refusal where
  /-- An instruction without a meaning, by its mnemonic. No arm raises it: all three commands have their meaning. Safe. -/
  | notModelled (mnemonic : String)
  deriving DecidableEq, Repr

/-- The machine right after reset (R37, R261): mode IDLE. The spec leaves `h`, `buf`, `c`, `t` and `outlen` unspecified;
the zeros here are log entries 1 and 2. Nothing has been sent and nothing answered. -/
def State.reset : State where
  h := Vector.replicate 8 0#64
  buf := []
  c := 0
  t := 0#64
  outlen := 0
  mode := .idle
  input := []
  out := []
  resetIn := false
  draws := 0

end Sys2Proof.Machine
end

