-- ==== Sys2Proof/Machine/Bits.lean ====
section
/-! DEFINITION. Word operations (spec/44_mixing_g.md R191 to R193) and byte order (spec/00_scope.md R10,
spec/20_memory.md R52, R53). -/

namespace Sys2Proof.Machine

/-- Right rotation of a 64-bit word, for 0 < n < 64 (R11, R191). -/
def rotr64 (x : Word) (n : Nat) : Word := (x >>> n) ||| (x <<< (64 - n))

/-- Addition modulo 2^64 (R192). -/
def add64 (p q : Word) : Word := p + q

/-- Bitwise exclusive or (R193). -/
def xor64 (p q : Word) : Word := p ^^^ q

/-- `byte_k(x)`: bits 8k+7 down to 8k (R10). -/
def byteOf (k : Nat) (x : Word) : Byte := x.extractLsb' (8 * k) 8

/-- `bytesLE(x)`: the eight bytes of a word, least significant first (R10). -/
def bytesLE (x : Word) : List Byte := (List.range 8).map fun k => byteOf k x

/-- `LE64`: the word whose byte `k` is the `k`-th of the list (R10). -/
def le64 : List Byte → Word
  | [] => 0
  | b :: bs => (le64 bs <<< 8) ||| b.setWidth 64

/-- A 128-byte block as sixteen little-endian words: word `i` from bytes 8i to 8i+7 (R52). -/
def wordsOfBlock (block : List Byte) : Vector Word 16 :=
  Vector.ofFn fun i => le64 ((block.drop (8 * i.val)).take 8)

end Sys2Proof.Machine
end

