-- ==== Sys2Proof/Machine/Ops.lean ====
section
/-! DEFINITION. The named operations over the buffer and the state that every command shares: reading and writing the
buffer (spec/00_scope.md R12, spec/20_memory.md R64), answering the host (spec/30_encoding.md R91), refusing a command
(spec/60_exceptions.md R230, R237, R238) and the reset event (spec/70_reset_and_hazards.md R260). -/

namespace Sys2Proof.Machine

/-- What a buffer offset that the list does not name reads as (DESIGN CHOICE, unsafe, log entry 2: the spec leaves it
unspecified, R37, and R65 says that no rule depends on it). -/
def unlistedByte : Byte := 0x00#8

/-- The byte at a buffer offset. -/
def Memory.read : Memory → Nat → Byte
  | [], _ => unlistedByte
  | (k, x) :: m, a => if k = a then x else Memory.read m a

/-- The entries at every other offset. -/
def Memory.erase (m : Memory) (a : Nat) : Memory := m.filter fun p => p.1 ≠ a

/-- An entry put in its place by offset. -/
def Memory.insert : Memory → Nat → Byte → Memory
  | [], a, b => [(a, b)]
  | (k, x) :: m, a, b => if a < k then (a, b) :: (k, x) :: m else (k, x) :: Memory.insert m a b

/-- Writes one byte, keeping the canonical form: an entry equal to `unlistedByte` is not listed. -/
def Memory.write (m : Memory) (a : Nat) (b : Byte) : Memory :=
  if b = unlistedByte then Memory.erase m a else Memory.insert (Memory.erase m a) a b

/-- The canonical form: offsets strictly rising, all in the address space 0..127 (R50, R59), no entry equal to
`unlistedByte`. -/
abbrev Memory.wf (m : Memory) : Prop :=
  m.Pairwise (fun p q => p.1 < q.1) ∧ ∀ p ∈ m, p.1 < Config.blockBytes ∧ p.2 ≠ unlistedByte

/-- `MemRead(off, n)` (R12, R64). -/
def memRead (m : Memory) (off n : Nat) : List Byte := (List.range n).map fun k => Memory.read m (off + k)

/-- `MemWrite(off, n, s)` with `n = len(s)` (R12, R64). -/
def memWrite : Memory → Nat → List Byte → Memory
  | m, _, [] => m
  | m, off, b :: s => memWrite (Memory.write m off b) (off + 1) s

/-- `zeros(n)` (R110, R150). -/
def zeros (n : Nat) : List Byte := List.replicate n 0x00#8

/-- `respond(status, info, data)`: the command completes with this response (R12, R91). -/
def respond (status : Status) (info : Byte) (data : List Byte) (s : State) : State :=
  { s with out := s.out ++ [⟨status, info, data⟩] }

/-- `raise E(info)`, the engine's whole exception entry (R12, R230, R237): the error response is emitted and nothing
else happens. No state is saved, no mode changes, there is no handler, and there is no return either (R238): the next
command is taken as if the refused one had never been sent. -/
def raise (status : Status) (info : Byte) (s : State) : Host.Outcome State Fault Refusal :=
  .next (respond status info [] s)

/-- An undecodable word raises IllegalCommand with `info` 0 in every mode (R88, R233). -/
def execIllegal (s : State) : Host.Outcome State Fault Refusal := raise .illegalCommand 0x00 s

/-- An unspecified buffer: every offset holds a free value. -/
def freeBuffer (draw : Nat) : Memory :=
  memWrite [] 0 ((List.range Config.blockBytes).map fun a => Config.freeByte draw a)

/-- The reset event (R260): mode IDLE, a partly received command discarded and the stream restarted at a header
boundary, no response; every other piece of state becomes unspecified, a free value (log entry 3). -/
def takeReset (s : State) : State :=
  { s with
    mode := .idle
    input := []
    resetIn := false
    h := Config.freeHash s.draws
    buf := freeBuffer s.draws
    c := Config.freeFill s.draws
    t := Config.freeCounter s.draws
    outlen := Config.freeOutlen s.draws
    draws := s.draws + 1 }

end Sys2Proof.Machine
end

