-- ==== Sys2Proof/Machine/Operands.lean ====
section
/-! DEFINITION. The operand forms (spec/30_encoding.md R93): every operand is an unsigned field or the payload. The one
operand that is shifted is `klen` in INIT's parameter word (spec/40_init.md R111). -/

namespace Sys2Proof.Machine

/-- The parameter word `P = 0x01010000 ^ (klen << 8) ^ nn`, zero-extended to 64 bits (R111). -/
def paramWord (klen nn : Byte) : Word := 0x01010000#64 ^^^ (klen.setWidth 64 <<< 8) ^^^ nn.setWidth 64

/-- A key is present when `klen >= 1` (R115). -/
def keyPresent (klen : Byte) : Bool := 1 ≤ klen.toNat

/-- The output length as the register holds it (R25); used for legal `nn` only, where it is `nn`. -/
def outlenOf (nn : Byte) : Fin 65 := Fin.ofNat 65 nn.toNat

/-- How many bytes one pass of UPDATE copies: `min(remaining, 128 - c)` (R130, R194). -/
def copyCount (remaining : Nat) (c : Fin 129) : Nat := min remaining (Config.blockBytes - c.val)

/-- `c + k` after a copy of `k` bytes that fit (R130, R194: exact, at most 128). -/
def advanceFill (c : Fin 129) (k : Nat) : Fin 129 := Fin.ofNat 129 (c.val + k)

/-- `t + k` (R130, R194: exact where the overflow check has passed). -/
def advanceCounter (t : Word) (k : Nat) : Word := t + BitVec.ofNat 64 k

end Sys2Proof.Machine
end

