-- ==== Sys2Proof/Machine/Flags.lean ====
section
/-! DEFINITION. The engine has no condition codes (spec/10_state.md R33). What stands here is every condition a command
tests and every code a response carries: mode and status codes (R26, spec/30_encoding.md R92), INIT's two parameter checks
(spec/60_exceptions.md R231), UPDATE's counter check (spec/41_update.md R136), and the final-block flag's mask word
(spec/43_compress.md R173). -/

namespace Sys2Proof.Machine

/-- The 2-bit code of a mode (R26). -/
def Mode.code : Mode → BitVec 2
  | .idle => 0
  | .streaming => 1
  | .finalized => 2

/-- A StateError's `info`: the code of the current mode (R232). -/
def modeInfo (m : Mode) : Byte := m.code.setWidth 8

/-- The status byte (R92). -/
def Status.code : Status → Byte
  | .ok => 0x00
  | .invalidParameter => 0x01
  | .stateError => 0x02
  | .illegalCommand => 0x03
  | .counterOverflow => 0x04

/-- `(nn == 0) or (nn > 64)` (R110). -/
def badNn (nn : Byte) : Bool := nn.toNat = 0 || Config.outMax < nn.toNat

/-- `klen > 64` (R110). -/
def badKlen (klen : Byte) : Bool := Config.keyMax < klen.toNat

/-- InvalidParameter's `info`: bit 0 for a bad `nn`, bit 1 for a bad `klen` (R110, R231). -/
def paramInfo (klen nn : Byte) : Byte :=
  ((if badKlen klen then 1#8 else 0#8) <<< 1) ||| (if badNn nn then 1#8 else 0#8)

/-- `t + n > 2^64 - 1` in exact arithmetic (R136, R194). -/
def counterOverflows (t : Word) (n : Nat) : Bool := 2 ^ 64 - 1 < t.toNat + n

/-- The word XORed into `v[14]`: all ones on the final block, else zero (R173). -/
def finalMask (f : Bool) : Word := if f then 0xFFFFFFFFFFFFFFFF#64 else 0#64

/-- A response on the response stream: `status`, `info`, then the data bytes (R91). -/
def Response.bytes (r : Response) : List Byte := r.status.code :: r.info :: r.data

end Sys2Proof.Machine
end

