-- ==== Sys2Proof/Machine/Compress.lean ====
section
/-! DEFINITION. The compression function (spec/43_compress.md R170 to R180) and the mixing primitive G
(spec/44_mixing_g.md R190), internal operations that UPDATE and FINAL run. -/

namespace Sys2Proof.Machine

/-- The eight lines of G on four words and two message words (R190); answers `(va, vb, vc, vd)`. -/
def mixG (va vb vc vd x y : Word) : Word × Word × Word × Word :=
  let va := add64 (add64 va vb) x
  let vd := rotr64 (xor64 vd va) 32
  let vc := add64 vc vd
  let vb := rotr64 (xor64 vb vc) 24
  let va := add64 (add64 va vb) y
  let vd := rotr64 (xor64 vd va) 16
  let vc := add64 vc vd
  let vb := rotr64 (xor64 vb vc) 63
  (va, vb, vc, vd)

/-- `G(a, b, c, d, x, y)` on the working vector (R175, R190). -/
def applyG (a b c d : Fin 16) (x y : Word) (v : Vector Word 16) : Vector Word 16 :=
  match mixG v[a] v[b] v[c] v[d] x y with
  | (va, vb, vc, vd) => (((v.set a.val va).set b.val vb).set c.val vc).set d.val vd

/-- `ROUND(r)` with row `s`: the column step, then the diagonal step (R175). -/
def roundG (s : Vector (Fin 16) 16) (m : Vector Word 16) (v : Vector Word 16) : Vector Word 16 :=
  let v := applyG 0 4 8 12 m[s[0]] m[s[1]] v
  let v := applyG 1 5 9 13 m[s[2]] m[s[3]] v
  let v := applyG 2 6 10 14 m[s[4]] m[s[5]] v
  let v := applyG 3 7 11 15 m[s[6]] m[s[7]] v
  let v := applyG 0 5 10 15 m[s[8]] m[s[9]] v
  let v := applyG 1 6 11 12 m[s[10]] m[s[11]] v
  let v := applyG 2 7 8 13 m[s[12]] m[s[13]] v
  applyG 3 4 9 14 m[s[14]] m[s[15]] v

/-- LOADM (R171): the whole buffer as sixteen message words. -/
def loadM (buf : Memory) : Vector Word 16 := wordsOfBlock (memRead buf 0 Config.blockBytes)

/-- VINIT (R172): `v[0..7] = h`, `v[8..15] = IV`. -/
def vinit (h : Vector Word 8) : Vector Word 16 := h ++ IV

/-- MASK (R173): the byte count into `v[12]`, the final-block flag into `v[14]`. -/
def maskV (t : Word) (f : Bool) (v : Vector Word 16) : Vector Word 16 :=
  let v := v.set 12 (xor64 v[12] t)
  v.set 14 (xor64 v[14] (finalMask f))

/-- The round loop: rounds 0 to 11 in order, round `r` with row `r mod 10` (R174). -/
def runRounds (m : Vector Word 16) (v : Vector Word 16) : Vector Word 16 :=
  (List.range Config.rounds).foldl (fun v r => roundG (sigmaRow r) m v) v

/-- FOLD (R177). -/
def foldBack (h : Vector Word 8) (v : Vector Word 16) : Vector Word 8 :=
  Vector.ofFn fun i => xor64 (xor64 h[i] v[i.val]) v[i.val + 8]

/-- COMPRESS as a function of the chaining words, the message words, the byte count and the final-block flag (R179, R180). -/
def compressWords (h : Vector Word 8) (m : Vector Word 16) (t : Word) (f : Bool) : Vector Word 8 :=
  foldBack h (runRounds m (maskV t f (vinit h)))

/-- `COMPRESS(f)` (R170): writes `h` and nothing else (R178). -/
def compress (f : Bool) (s : State) : State := { s with h := compressWords s.h (loadM s.buf) s.t f }

end Sys2Proof.Machine
end

