-- ==== Sys2Proof/Machine/Final.lean ====
section
/-! DEFINITION. FINAL (spec/42_final.md R150 to R155). -/

namespace Sys2Proof.Machine

/-- Zero padding of the last block at offsets `c` to 127 (R151); `c` and `t` do not change. -/
def padBlock (s : State) : State := { s with buf := memWrite s.buf s.c.val (zeros (Config.blockBytes - s.c.val)) }

/-- The digest: the first `outlen` bytes of the little-endian bytes of `h[0..7]` (R152, R53). -/
def digest (h : Vector Word 8) (outlen : Nat) : List Byte := (h.toList.flatMap bytesLE).take outlen

/-- `mode <- FINALIZED` and the response that carries the digest (R150, R91). -/
def closeContext (s : State) : State :=
  respond .ok (BitVec.ofNat 8 s.outlen.val) (digest s.h s.outlen.val) { s with mode := .finalized }

/-- FINAL (R150): refused outside STREAMING (R154); else padding, COMPRESS(1), and the digest. -/
def execFinal (s : State) : Host.Outcome State Fault Refusal :=
  if s.mode ≠ .streaming then raise .stateError (modeInfo s.mode) s
  else .next (closeContext (compress true (padBlock s)))

end Sys2Proof.Machine
end

