-- ==== Sys2Proof/Machine/Init.lean ====
section
/-! DEFINITION. INIT (spec/40_init.md R110 to R117). -/

namespace Sys2Proof.Machine

/-- The chaining words of a new context: `IV` with the parameter word XORed into word 0 (R110, R111). -/
def initialHash (klen nn : Byte) : Vector Word 8 := IV.set 0 (xor64 IV[0] (paramWord klen nn))

/-- The key block: the key at offsets 0 to klen-1, zeros above it (R112). -/
def keyBlock (klen : Byte) (key : List Byte) (buf : Memory) : Memory :=
  memWrite (memWrite buf 0 (key.take klen.toNat)) klen.toNat (zeros (Config.blockBytes - klen.toNat))

/-- The context an accepted INIT opens (R110, R112, R115). -/
def openContext (klen nn : Byte) (key : List Byte) (s : State) : State :=
  if keyPresent klen then
    { s with h := initialHash klen nn, outlen := outlenOf nn, buf := keyBlock klen key s.buf, c := 128, t := 128#64, mode := .streaming }
  else
    { s with h := initialHash klen nn, outlen := outlenOf nn, c := 0, t := 0#64, mode := .streaming }

/-- INIT (R110): refused with InvalidParameter before any write, else a new context in any mode (R113). -/
def execInit (klen nn : Byte) (key : List Byte) (s : State) : Host.Outcome State Fault Refusal :=
  if badNn nn || badKlen klen then raise .invalidParameter (paramInfo klen nn) s
  else .next (respond .ok 0x00 [] (openContext klen nn key s))

end Sys2Proof.Machine
end

