-- ==== Sys2Proof/Machine/Update.lean ====
section
/-! DEFINITION. UPDATE (spec/41_update.md R130 to R138). -/

namespace Sys2Proof.Machine

/-- A full buffer left over when a further byte has come is not the last block: COMPRESS(0), then `c <- 0` (R130). -/
def flushFull (s : State) : State := if s.c = 128 then { compress false s with c := 0 } else s

/-- `MemWrite(c, k, bytes)`, then `c` and `t` advanced by `k` (R130). -/
def absorbBytes (bytes : List Byte) (s : State) : State :=
  { s with
    buf := memWrite s.buf s.c.val bytes
    c := advanceFill s.c bytes.length
    t := advanceCounter s.t bytes.length }

/-- The loop of R130 over the bytes still to be consumed; every pass consumes at least one, so as many passes as there
are bytes suffice. -/
def absorbLoop : Nat → List Byte → State → State
  | 0, _, s => s
  | _ + 1, [], s => s
  | passes + 1, b :: data, s =>
    let s := flushFull s
    let k := copyCount (b :: data).length s.c
    absorbLoop passes ((b :: data).drop k) (absorbBytes ((b :: data).take k) s)

/-- `ABSORB1(b)` (R131), the byte-at-a-time step. -/
def absorb1 (s : State) (b : Byte) : State := absorbBytes [b] (flushFull s)

/-- UPDATE (R130): the mode check, then the counter check (R236), both before any write, then the loop. -/
def execUpdate (data : List Byte) (s : State) : Host.Outcome State Fault Refusal :=
  if s.mode ≠ .streaming then raise .stateError (modeInfo s.mode) s
  else if counterOverflows s.t data.length then raise .counterOverflow 0x00 s
  else .next (respond .ok 0x00 [] (absorbLoop data.length data s))

end Sys2Proof.Machine
end

