-- ==== Sys2Proof/Machine/HostPort.lean ====
section
/-! DEFINITION. What the host does to the engine between steps (spec/00_scope.md R9, spec/30_encoding.md R81, R91,
spec/70_reset_and_hazards.md R260): it sends command bytes, it asserts the reset input, it reads the response stream. -/

namespace Sys2Proof.Machine

/-- The host sends bytes: they arrive behind those already waiting (R81). -/
def hostSend (bytes : List Byte) (s : State) : State := { s with input := s.input ++ bytes }

/-- The host asserts the reset input (R239, R260); the next step takes the reset event. -/
def hostReset (s : State) : State := { s with resetIn := true }

end Sys2Proof.Machine
end

