-- ==== Sys2Proof/Machine/Step.lean ====
section
/-! DEFINITION. One step of the engine: the reset event if the reset input is asserted (spec/70_reset_and_hazards.md
R260), else the command at the head of the stream, whole (spec/20_memory.md R60, spec/30_encoding.md R87, R90). -/

namespace Sys2Proof.Machine

/-- One step (R60, R87, R90, R260). The command's bytes are consumed whether it is accepted or refused. -/
def step (s : State) : Host.Outcome State Fault Refusal :=
  if s.resetIn then .next (takeReset s)
  else
    match fetch s.input with
    | .command i rest => exec i { s with input := rest }
    | .illegal _ rest => execIllegal { s with input := rest }
    | .incomplete => .fault .incompleteCommand

/-- The state in which the next step runs the command whose bits are `w` as spec/opcode_table.json numbers them: its
bytes stand at the head of the command stream and no reset is pending (log entry 4). -/
def State.withFetchWord (s : State) (nbits w : Nat) : State :=
  { s with input := tableBytes nbits w ++ s.input, resetIn := false }

end Sys2Proof.Machine
end

