-- ==== Sys2Proof/Machine/Assembler.lean ====
section
/-! DEFINITION. The spec's assembler (spec/30_encoding.md R94) and its pseudo-commands (R95), as functions to stream
bytes. An assembler refuses nothing: out-of-range operands are assembled as written. Two points are the model's own
choice: a key too long for `klen` (log entry 13) and where over-long data are cut (log entry 14). -/

namespace Sys2Proof.Machine

/-- One line of R94's syntax, its operands read. -/
inductive AsmLine where
  /-- `INIT`, the defaults -/
  | initDefault
  /-- `INIT nn` -/
  | initPlain (nn : Byte)
  /-- `INIT nn, key=<hex>` -/
  | initKeyed (nn : Byte) (key : List Byte)
  /-- `UPDATE <bytes>`, or `UPDATE` with none -/
  | update (data : List Byte)
  /-- `FINAL` -/
  | final
  /-- `.word <32-bit hex>` -/
  | word (cw : BitVec 32)
  /-- `HASH <bytes>` -/
  | hash (message : List Byte)
  deriving DecidableEq, Repr

/-- A byte string in consecutive pieces of at most 65535 bytes, each of at least one byte (R95). R95 lets the cuts stand
anywhere; that every piece but the last is full is the model's choice (DESIGN CHOICE, log entry 14). -/
def pieces : Nat → List Byte → List (List Byte)
  | 0, _ => []
  | _ + 1, [] => []
  | n + 1, b :: bs => (b :: bs).take Config.updMax :: pieces n ((b :: bs).drop Config.updMax)

/-- The UPDATE commands of a byte string: one if it fits the length field, else one for each piece (R94, R95). -/
def updateCommands (data : List Byte) : List Instr :=
  if data.length ≤ Config.updMax then [.update data] else (pieces data.length data).map .update

/-- The commands of `HASH` (R95): `INIT 64`, the message, `FINAL`. -/
def hashCommands (message : List Byte) : List Instr :=
  .init 0x00 0x40 [] :: (pieces message.length message).map .update ++ [.final]

/-- The stream bytes of one line (R94, R95). A key of more than 255 bytes has no encoding (decision D3); the model writes
its length modulo 256 in `klen` and the whole key as payload (DESIGN CHOICE, log entry 13). -/
def assembleLine : AsmLine → List Byte
  | .initDefault => encode (.init 0x00 0x40 [])
  | .initPlain nn => encode (.init 0x00 nn [])
  | .initKeyed nn key => encode (.init (BitVec.ofNat 8 key.length) nn key)
  | .update data => (updateCommands data).flatMap encode
  | .final => encode .final
  | .word cw => wordBytes cw
  | .hash message => (hashCommands message).flatMap encode

end Sys2Proof.Machine
end

