-- ==== Sys2Proof/Safety.lean ====
section
/-! DEFINITION. The terms claims are stated in: the invariants of spec/10_state.md R35, which states the machine can get
to, which states the host cannot tell apart, runs of commands, the schedule of spec/45_constants_schedule.md R213 and R214
in closed form, and the hash of a whole message as one function. -/

namespace Sys2Proof.Safety

open Sys2Proof.Machine

/-- R35 (c): `c` is a function of `t`. -/
def FillMatchesCounter (s : State) : Prop :=
  s.c.val = if s.t.toNat = 0 then 0 else (s.t.toNat - 1) % 128 + 1

/-- R91: `dlen` is `info` when the status is OK and 0 otherwise. -/
def ResponseSized (r : Response) : Prop := r.data.length = if r.status = .ok then r.info.toNat else 0

/-- What holds between commands: the buffer is in canonical form inside its address space (R50); once a context has
been opened its output length is legal and its fill count matches its counter (R35 (b), (c)); every response emitted has
the length R91 gives it. (R35 (a) is the type of `c`.) -/
structure Inv (s : State) : Prop where
  bufferCanonical : Memory.wf s.buf
  outlenLegal : s.mode ≠ .idle → 1 ≤ s.outlen.val
  fillMatches : s.mode ≠ .idle → FillMatchesCounter s
  responsesSized : ∀ r ∈ s.out, ResponseSized r

/-- A state right after reset, its unspecified registers and buffer at any value (R37, R261). -/
def PowerUp (s : State) : Prop :=
  s.mode = .idle ∧ Memory.wf s.buf ∧ s.input = [] ∧ s.out = [] ∧ s.resetIn = false

/-- The states the engine can get to while the host sends bytes and asserts reset whenever it likes (R9, R260). -/
inductive Reachable : State → Prop where
  | powerUp {s : State} (h : PowerUp s) : Reachable s
  | send {s : State} (bytes : List Byte) (h : Reachable s) : Reachable (hostSend bytes s)
  | reset {s : State} (h : Reachable s) : Reachable (hostReset s)
  | step {s s' : State} (h : Reachable s) (next : step s = .next s') : Reachable s'

/-- States that differ only in what the spec leaves unspecified: outside STREAMING any of `h`, `buf`, `c`, `t` and
`outlen` (R37, R153); in STREAMING the buffer bytes at offsets `c` and above (R65). -/
structure HostAlike (s1 s2 : State) : Prop where
  mode : s1.mode = s2.mode
  input : s1.input = s2.input
  out : s1.out = s2.out
  resetIn : s1.resetIn = s2.resetIn
  context : s1.mode = .streaming →
    s1.h = s2.h ∧ s1.c = s2.c ∧ s1.t = s2.t ∧ s1.outlen = s2.outlen
      ∧ ∀ a, a < s1.c.val → Memory.read s1.buf a = Memory.read s2.buf a

/-- Commands taken one after another, each in full before the next (R60). -/
def execAll : List Instr → State → Host.Outcome State Fault Refusal
  | [], s => .next s
  | i :: is, s =>
    match exec i s with
    | .next s' => execAll is s'
    | .fault r => .fault r
    | .refused r => .refused r

/-- The payload length as R86's tests give it from the four header bytes. -/
def announced (s0 s1 s2 s3 : Byte) : Nat :=
  if s3 = 0x01#8 ∧ s2 = 0x00#8 then s1.toNat
  else if s3 = 0x02#8 ∧ s2 = 0x00#8 then s0.toNat + 256 * s1.toNat
  else 0

/-- The four `v` indices of G operation `j`, in the closed form of R213. -/
def groupOf (j : Nat) : Fin 16 × Fin 16 × Fin 16 × Fin 16 :=
  if j < 4 then (Fin.ofNat 16 j, Fin.ofNat 16 (4 + j), Fin.ofNat 16 (8 + j), Fin.ofNat 16 (12 + j))
  else (Fin.ofNat 16 (j - 4), Fin.ofNat 16 (4 + (j - 4 + 1) % 4), Fin.ofNat 16 (8 + (j - 4 + 2) % 4),
    Fin.ofNat 16 (12 + (j - 4 + 3) % 4))

/-- G operation `j` of round `r` (R175, R213): the words that entries `2j` and `2j + 1` of row `r mod 10` select. -/
def gOperation (m : Vector Word 16) (r : Nat) (v : Vector Word 16) (j : Nat) : Vector Word 16 :=
  let row := sigmaRow r
  match groupOf j with
  | (a, b, c, d) => applyG a b c d m[row[Fin.ofNat 16 (2 * j)]] m[row[Fin.ofNat 16 (2 * j + 1)]] v

/-- Step `8r + j` of the flattened schedule (R214). -/
def scheduleStep (m : Vector Word 16) (v : Vector Word 16) (step : Nat) : Vector Word 16 :=
  gOperation m (step / 8) v (step % 8)

/-- Block `i` of a byte stream, a short last block filled up with zeros. -/
def blockAt (stream : List Byte) (i : Nat) : Vector Word 16 :=
  wordsOfBlock (((stream.drop (128 * i)).take 128 ++ zeros 128).take 128)

/-- The chaining words after the first `k` blocks of a stream, each compressed as a non-final block whose count is
`base + 128 · (its number, from 1)` (R134). -/
def chain (h : Vector Word 8) (base : Word) (stream : List Byte) (k : Nat) : Vector Word 8 :=
  (List.range k).foldl (fun h i => compressWords h (blockAt stream i) (base + BitVec.ofNat 64 (128 * (i + 1))) false) h

/-- The byte stream that is hashed: a key's block of 128 bytes, if there is a key, then the message (R112, R137). -/
def hashedStream (key message : List Byte) : List Byte :=
  (if key = [] then [] else key ++ zeros (128 - key.length)) ++ message

/-- BLAKE2b of a whole message: `max(1, ceil(L / 128))` compressions of the stream's blocks, all but the last with
`f = 0` and their own byte count, the last with `f = 1` and the stream's length (R35, R150, R270). -/
def hashOf (key : List Byte) (nn : Byte) (message : List Byte) : List Byte :=
  let stream := hashedStream key message
  let last := (stream.length - 1) / 128
  let h := chain (initialHash (BitVec.ofNat 8 key.length) nn) 0#64 stream last
  digest (compressWords h (blockAt stream last) (BitVec.ofNat 64 stream.length) true) nn.toNat

end Sys2Proof.Safety
end

