-- ==== Sys2Proof/Certificates/Slice0/Obligations.lean ====
section
/-! DEFINITION. The statements for the provers, in the order of spec/'s files. Each docstring names the rule it
formalises. -/

open Sys2Proof Sys2Proof.Machine Sys2Proof.Safety

/-! ### The machine's state and its streams -/

/-- R37, R261: at reset the mode is IDLE and the invariants of R35 hold. (The values of the other registers at reset are
the model's own, log entries 1 and 2; nothing is said of them here.) -/
def Obligations.ResetIsIdleAndMeetsTheInvariant : Prop :=
  State.reset.mode = .idle ∧ Inv State.reset ∧ PowerUp State.reset

/-- R35 (a), (b), (c), R50, R91: every step keeps the invariants, from every state that meets them. -/
def Obligations.EveryStepKeepsTheInvariant : Prop :=
  ∀ s s' : State, Inv s → step s = .next s' → Inv s'

/-- R37, R261, R260: from any power-up state, whatever the host sends and whenever it asserts reset, the invariants hold.
(That the host's moves fall between steps, the reset event among them, is log entries 10 and 3.) -/
def Obligations.InvariantHoldsInEveryReachableState : Prop :=
  ∀ s : State, Reachable s → Inv s

/-- R37, R65, R153: what the spec leaves unspecified never influences a response. Two states that differ only there
take the same kind of step, and the states after it differ only there again, so their response streams stay equal. (The
model's choices at those places are log entries 1, 2 and 3; this says that no response depends on them.) -/
def Obligations.UnspecifiedStateNeverReachesTheHost : Prop :=
  ∀ s1 s2 : State, HostAlike s1 s2 →
    (∃ u1 u2, step s1 = .next u1 ∧ step s2 = .next u2 ∧ HostAlike u1 u2)
      ∨ (step s1 = .fault .incompleteCommand ∧ step s2 = .fault .incompleteCommand)

/-- R261: every value of the unspecified registers gives the same runs: from two power-up states the same bytes are
answered alike, however many commands are run. (That the engine's wait for more bytes is the stop `incompleteCommand` is
log entry 7.) -/
def Obligations.AnyPowerUpStateAnswersAlike : Prop :=
  ∀ (s1 s2 : State) (bytes : List Byte) (n : Nat), PowerUp s1 → PowerUp s2 →
    (∃ u1 u2, Host.Core.run core n (hostSend bytes s1) = .next u1 ∧ Host.Core.run core n (hostSend bytes s2) = .next u2
        ∧ u1.out = u2.out ∧ u1.mode = u2.mode)
      ∨ (Host.Core.run core n (hostSend bytes s1) = .fault .incompleteCommand
        ∧ Host.Core.run core n (hostSend bytes s2) = .fault .incompleteCommand)

/-- R260: with the reset input asserted the step is the reset event: mode IDLE, all bytes sent before it discarded, no
response emitted, the reset input taken. Two things here are the model's: that the event is taken between steps (log
entry 3), and that the responses emitted before it stay in the record `out`, which R260 does not say (the model's choice,
log entry 9). -/
def Obligations.ResetEventDiscardsTheStream : Prop :=
  ∀ s : State, s.resetIn = true →
    ∃ s', step s = .next s' ∧ s'.mode = .idle ∧ s'.input = [] ∧ s'.out = s.out ∧ s'.resetIn = false ∧ Memory.wf s'.buf

/-! ### Byte order -/

/-- R52: message word `i` is the sum over `k` in 0..7 of `buf[8i+k] · 2^(8k)`. -/
def Obligations.MessageWordsAreLittleEndian : Prop :=
  ∀ (buf : Memory) (i : Fin 16),
    (loadM buf)[i].toNat = ∑ k ∈ Finset.range 8, (Memory.read buf (8 * i.val + k)).toNat * 2 ^ (8 * k)

/-- R54: bit `b` of the byte at offset `o` is bit `8·(o mod 8) + b` of message word `o div 8`. -/
def Obligations.BufferByteIsItsSliceOfAMessageWord : Prop :=
  ∀ (buf : Memory) (o : Fin 128) (b : Fin 8),
    (loadM buf)[o.val / 8].getLsbD (8 * (o.val % 8) + b.val) = (Memory.read buf o.val).getLsbD b.val

/-! ### Commands on the stream -/

/-- R81 to R87, R93: reading back an encoded command gives it, with all its operands, and leaves the bytes after it. -/
def Obligations.DecodingInvertsEncoding : Prop :=
  ∀ (i : Instr) (rest : List Byte), i.wf = true → fetch (encode i ++ rest) = .command i rest

/-- R86, R87, R93: a command that is read is well-formed, and the bytes read are its one encoding. -/
def Obligations.EveryCommandHasOneSpelling : Prop :=
  ∀ (bytes : List Byte) (i : Instr) (rest : List Byte), fetch bytes = .command i rest →
    i.wf = true ∧ bytes = encode i ++ rest

/-- R86, R88: a command word is illegal exactly when its `op` is none of 1, 2, 3, or its `rsv` is not zero, or it is
FINAL's with a non-zero `arg`. -/
def Obligations.IllegalWordsAreThoseOfNoFormat : Prop :=
  ∀ cw : BitVec 32, decodeHeader cw = .illegal ↔
    (cw.extractLsb' 24 8 ≠ 0x01#8 ∧ cw.extractLsb' 24 8 ≠ 0x02#8 ∧ cw.extractLsb' 24 8 ≠ 0x03#8)
      ∨ cw.extractLsb' 16 8 ≠ 0x00#8
      ∨ (cw.extractLsb' 24 8 = 0x03#8 ∧ cw.extractLsb' 0 16 ≠ 0x0000#16)

/-- R96: the worked encodings, written out as stream bytes, decode to their commands; the illegal examples do not. -/
def Obligations.WorkedEncodingsDecode : Prop :=
  fetch [0x40, 0x00, 0x00, 0x01] = .command (.init 0 64 []) []
    ∧ fetch [0x20, 0x00, 0x00, 0x01] = .command (.init 0 32 []) []
    ∧ fetch [0x10, 0x01, 0x00, 0x01, 0xaa] = .command (.init 1 16 [0xaa]) []
    ∧ fetch [0x03, 0x00, 0x00, 0x02, 0x61, 0x62, 0x63] = .command (.update [0x61, 0x62, 0x63]) []
    ∧ fetch [0x00, 0x00, 0x00, 0x02] = .command (.update []) []
    ∧ fetch [0x00, 0x00, 0x00, 0x03] = .command .final []
    ∧ fetch [0x00, 0x00, 0x00, 0x00] = .illegal 0x00000000 []
    ∧ fetch [0x00, 0x00, 0x00, 0x04] = .illegal 0x04000000 []
    ∧ fetch [0x40, 0x00, 0x01, 0x01] = .illegal 0x01010040 []
    ∧ fetch [0x01, 0x00, 0x00, 0x03] = .illegal 0x03000001 []

/-- R60, R87: a step runs the command at the head of the stream, whole, with the command's bytes consumed. -/
def Obligations.StepRunsTheDecodedCommand : Prop :=
  ∀ (s : State) (i : Instr) (rest : List Byte), s.resetIn = false → fetch s.input = .command i rest →
    step s = exec i { s with input := rest }

/-- R87: a step consumes the `4 + plen` bytes of its command, accepted, refused or illegal. -/
def Obligations.EveryCommandConsumesItsLength : Prop :=
  ∀ (s s' : State), s.resetIn = false → step s = .next s' →
    ∃ s0 s1 s2 s3 rest, s.input = s0 :: s1 :: s2 :: s3 :: rest ∧ announced s0 s1 s2 s3 ≤ rest.length
      ∧ s'.input = rest.drop (announced s0 s1 s2 s3)

/-- R90: the engine has no step exactly when fewer than 4 bytes, or not all of the announced payload, have arrived. -/
def Obligations.IncompleteCommandHasNoStep : Prop :=
  ∀ s : State, s.resetIn = false →
    (step s = .fault .incompleteCommand ↔
      s.input.length < 4
        ∨ ∃ s0 s1 s2 s3 rest, s.input = s0 :: s1 :: s2 :: s3 :: rest ∧ rest.length < announced s0 s1 s2 s3)

/-- R270, R60: every complete command finishes: unless the stream holds no complete command, the step answers a next
state. -/
def Obligations.NoCompleteCommandHangs : Prop :=
  ∀ s : State, fetch s.input ≠ .incomplete → ∃ s', step s = .next s'

/-- R88, R233: a word of no format (the op, in the fourth byte, none of 1, 2, 3; or the third byte not zero; or FINAL's
low bytes not zero) is answered with IllegalCommand in every mode, on the response stream the bytes 03 00; it changes no
state and consumes 4 bytes. -/
def Obligations.IllegalWordIsAnsweredInEveryMode : Prop :=
  ∀ (s : State) (s0 s1 s2 s3 : Byte) (rest : List Byte), s.resetIn = false → s.input = s0 :: s1 :: s2 :: s3 :: rest →
    (s3 ∉ [0x01#8, 0x02#8, 0x03#8] ∨ s2 ≠ 0x00#8 ∨ (s3 = 0x03#8 ∧ (s1 ≠ 0x00#8 ∨ s0 ≠ 0x00#8))) →
    ∃ r : Response, step s = .next { s with input := rest, out := s.out ++ [r] }
      ∧ r.status = .illegalCommand ∧ r.bytes = [0x03, 0x00]

/-- R91, R230: every complete command is answered with exactly one response, of the length its status and `info` give;
a refused command leaves `h`, `buf`, `c`, `t`, `outlen` and `mode` as they were and carries no data. -/
def Obligations.OneResponsePerCommandAndRefusalsChangeNothing : Prop :=
  ∀ s s' : State, s.resetIn = false → step s = .next s' →
    ∃ r : Response, s'.out = s.out ++ [r] ∧ ResponseSized r
      ∧ (r.status ≠ .ok → r.data = [] ∧ s'.h = s.h ∧ s'.buf = s.buf ∧ s'.c = s.c ∧ s'.t = s.t ∧ s'.outlen = s.outlen
          ∧ s'.mode = s.mode)

/-- R91: a reader can cut the response stream without knowing the commands: responses of the right length are told apart
by their bytes alone. -/
def Obligations.ResponseStreamCutsOneWay : Prop :=
  ∀ (rs rs' : List Response), (∀ r ∈ rs, ResponseSized r) → (∀ r ∈ rs', ResponseSized r) →
    rs.flatMap Response.bytes = rs'.flatMap Response.bytes → rs = rs'

/-- R60, R87: the engine run on the bytes of a list of commands does what the commands do one after another, and leaves
the bytes behind them. -/
def Obligations.StreamRunsItsCommandsInOrder : Prop :=
  ∀ (is : List Instr) (rest : List Byte) (s : State), (∀ i ∈ is, i.wf = true) → s.resetIn = false →
    Host.Core.run core is.length { s with input := is.flatMap encode ++ rest } = execAll is { s with input := rest }

/-! ### INIT -/

/-- R114, R231: an INIT with `nn` 0 or above 64, or `klen` above 64, is refused with InvalidParameter, both checks
reported in `info` (bit 0 for `nn`, bit 1 for `klen`), in every mode, and changes nothing. -/
def Obligations.InitRefusesIllegalLengths : Prop :=
  ∀ (klen nn : Byte) (key : List Byte) (s : State), (nn.toNat = 0 ∨ 64 < nn.toNat ∨ 64 < klen.toNat) →
    exec (.init klen nn key) s = .next { s with
      out := s.out ++ [⟨.invalidParameter,
        BitVec.ofNat 8 (2 * (if 64 < klen.toNat then 1 else 0) + (if nn.toNat = 0 ∨ 64 < nn.toNat then 1 else 0)), []⟩] }

/-- R110, R113, R115: INIT without a key, in every mode: `h = IV` with the parameter word XORed into `h[0]`, `outlen = nn`,
`c = 0`, `t = 0`, mode STREAMING, response OK; the buffer is not written and nothing else changes. -/
def Obligations.InitWithoutKeyOpensAnEmptyContext : Prop :=
  ∀ (nn : Byte) (s : State), 1 ≤ nn.toNat → nn.toNat ≤ 64 →
    ∃ n : Fin 65, n.val = nn.toNat ∧
      exec (.init 0 nn []) s = .next { s with
        h := #v[IV[0] ^^^ (0x01010000#64 ^^^ nn.setWidth 64), IV[1], IV[2], IV[3], IV[4], IV[5], IV[6], IV[7]]
        outlen := n
        c := 0
        t := 0#64
        mode := .streaming
        out := s.out ++ [⟨.ok, 0x00, []⟩] }

/-- R110, R112, R113: INIT with a key, in every mode: the buffer is the key and then zeros to 128 bytes, `c = 128`,
`t = 128`, the key block is not compressed (`h` is `IV` with the parameter word), mode STREAMING, response OK; nothing
else changes. -/
def Obligations.InitWithKeyPlacesTheKeyBlock : Prop :=
  ∀ (klen nn : Byte) (key : List Byte) (s : State), 1 ≤ klen.toNat → klen.toNat ≤ 64 → 1 ≤ nn.toNat → nn.toNat ≤ 64 →
    key.length = klen.toNat →
    ∃ s', exec (.init klen nn key) s = .next s'
      ∧ (∀ a, Memory.read s'.buf a
          = if h : a < key.length then key[a] else if a < 128 then 0x00#8 else Memory.read s.buf a)
      ∧ s'.h = #v[IV[0] ^^^ (0x01010000#64 ^^^ (klen.setWidth 64 <<< 8) ^^^ nn.setWidth 64), IV[1], IV[2], IV[3], IV[4],
          IV[5], IV[6], IV[7]]
      ∧ s'.outlen.val = nn.toNat ∧ s'.c.val = 128 ∧ s'.t = 128#64 ∧ s'.mode = .streaming
      ∧ s'.out = s.out ++ [⟨.ok, 0x00, []⟩] ∧ s'.input = s.input ∧ s'.resetIn = s.resetIn ∧ s'.draws = s.draws

/-- R111: for accepted operands the value XORed into `h[0]` has `nn` in bits 7:0, `klen` in bits 15:8, 0x01 in bits 23:16
and 31:24, equals the OR of its three terms, and leaves bits 63:32 of `IV[0]`. -/
def Obligations.ParameterWordFieldsAreDisjoint : Prop :=
  ∀ (klen nn : Byte) (key : List Byte) (s : State), klen.toNat ≤ 64 → 1 ≤ nn.toNat → nn.toNat ≤ 64 →
    ∃ s' P, exec (.init klen nn key) s = .next s' ∧ s'.h[0] = IV[0] ^^^ P
      ∧ P = 0x01010000#64 ^^^ (klen.setWidth 64 <<< 8) ^^^ nn.setWidth 64
      ∧ P = 0x01010000#64 ||| (klen.setWidth 64 <<< 8) ||| nn.setWidth 64
      ∧ P.extractLsb' 0 8 = nn ∧ P.extractLsb' 8 8 = klen ∧ P.extractLsb' 16 8 = 0x01#8 ∧ P.extractLsb' 24 8 = 0x01#8
      ∧ s'.h[0].extractLsb' 32 32 = IV[0].extractLsb' 32 32

/-- R113: an accepted INIT abandons the old context: from two states that differ in anything the context holds, the same
INIT leads to the same state; without a key the old buffer stays, and is all that stays. -/
def Obligations.InitForgetsTheOldContext : Prop :=
  ∀ (klen nn : Byte) (key : List Byte) (s1 s2 : State), klen.toNat ≤ 64 → 1 ≤ nn.toNat → nn.toNat ≤ 64 →
    key.length = klen.toNat → Memory.wf s1.buf → Memory.wf s2.buf →
    s1.input = s2.input → s1.out = s2.out → s1.resetIn = s2.resetIn → s1.draws = s2.draws →
    ∃ u1 u2, exec (.init klen nn key) s1 = .next u1 ∧ exec (.init klen nn key) s2 = .next u2
      ∧ u1 = (if klen.toNat = 0 then { u2 with buf := s1.buf } else u2)
      ∧ (klen.toNat = 0 → u2.buf = s2.buf)

/-! ### UPDATE -/

/-- R138, R232: UPDATE outside STREAMING raises StateError with the mode's code (IDLE 0, FINALIZED 2), changes nothing
else, and still consumes its payload. -/
def Obligations.UpdateIsRefusedOutsideStreaming : Prop :=
  ∀ (data : List Byte) (s : State), s.mode ≠ .streaming →
    exec (.update data) s = .next { s with
      out := s.out ++ [⟨.stateError, if s.mode = .idle then 0x00 else 0x02, []⟩] }
    ∧ ∀ rest, data.length ≤ 65535 → s.resetIn = false → s.input = encode (.update data) ++ rest →
      step s = .next { s with
        input := rest
        out := s.out ++ [⟨.stateError, if s.mode = .idle then 0x00 else 0x02, []⟩] }

/-- R136: an UPDATE that would take `t` past 2^64 - 1 raises CounterOverflow and changes nothing else, and the context
stays open: a shorter UPDATE or FINAL is accepted after it. Any other UPDATE is accepted in STREAMING and the counter's
sum is exact. -/
def Obligations.CounterNeverWraps : Prop :=
  ∀ (data : List Byte) (s : State), s.mode = .streaming →
    (2 ^ 64 - 1 < s.t.toNat + data.length →
      let refused := { s with out := s.out ++ [⟨.counterOverflow, 0x00, []⟩] }
      exec (.update data) s = .next refused
        ∧ (∀ shorter : List Byte, s.t.toNat + shorter.length ≤ 2 ^ 64 - 1 →
            ∃ s', exec (.update shorter) refused = .next s' ∧ s'.out = refused.out ++ [⟨.ok, 0x00, []⟩])
        ∧ ∃ s' r, exec .final refused = .next s' ∧ s'.out = refused.out ++ [r] ∧ r.status = .ok)
    ∧ (s.t.toNat + data.length ≤ 2 ^ 64 - 1 →
      ∃ s', exec (.update data) s = .next s' ∧ s'.t.toNat = s.t.toNat + data.length ∧ s'.mode = .streaming)

/-- R133: a zero-length UPDATE in STREAMING changes nothing, a full buffer included, and answers OK; in any other mode it
is refused with StateError. -/
def Obligations.ZeroLengthUpdateIsANoOp : Prop :=
  ∀ s : State,
    exec (.update []) s = .next { s with
      out := s.out ++ [if s.mode = .streaming then ⟨.ok, 0x00, []⟩
        else ⟨.stateError, if s.mode = .idle then 0x00 else 0x02, []⟩] }

/-- R131: an accepted UPDATE has the effect of `ABSORB1` for each byte in order. -/
def Obligations.UpdateFoldsAbsorbOneOverItsBytes : Prop :=
  ∀ (data : List Byte) (s : State), s.mode = .streaming → s.t.toNat + data.length ≤ 2 ^ 64 - 1 →
    exec (.update data) s = .next (respond .ok 0x00 [] (data.foldl
      (fun s b =>
        let s := if s.c.val = 128 then { s with h := compressWords s.h (loadM s.buf) s.t false, c := 0 } else s
        { s with buf := Memory.write s.buf s.c.val b, c := s.c + 1, t := s.t + 1 }) s))

/-- R132, R134: an accepted UPDATE of `n >= 1` bytes runs `ceil((c0 + n) / 128) - 1` compressions, all non-final, the
`i`-th reading `t0 - c0 + 128·i` as its count and the `i`-th block of the pending bytes followed by the data; it ends with
`c = ((c0 + n - 1) mod 128) + 1`, `t = t0 + n` and the rest of those bytes in the buffer. -/
def Obligations.UpdateCompressesEveryBlockButTheLast : Prop :=
  ∀ (data : List Byte) (s : State), s.mode = .streaming → s.t.toNat + data.length ≤ 2 ^ 64 - 1 → 1 ≤ data.length →
    ∃ s', exec (.update data) s = .next s' ∧
      let pending := memRead s.buf 0 s.c.val ++ data
      let n := (s.c.val + data.length + 127) / 128 - 1
      s'.h = chain s.h (s.t - BitVec.ofNat 64 s.c.val) pending n
        ∧ s'.c.val = (s.c.val + data.length - 1) % 128 + 1
        ∧ s'.t.toNat = s.t.toNat + data.length
        ∧ memRead s'.buf 0 s'.c.val = pending.drop (128 * n)

/-- R36, R130: what UPDATE leaves alone: `outlen`, `mode` and everything outside the context; `h` while no full block is
followed by a byte; every buffer byte at an offset that no data byte falls on. (A data byte `k` falls on offset
`(c + k) mod 128`.) -/
def Obligations.UpdateLeavesTheRestAlone : Prop :=
  ∀ (data : List Byte) (s : State), s.mode = .streaming → s.t.toNat + data.length ≤ 2 ^ 64 - 1 →
    ∃ s', exec (.update data) s = .next s'
      ∧ s'.outlen = s.outlen ∧ s'.mode = s.mode ∧ s'.input = s.input ∧ s'.resetIn = s.resetIn ∧ s'.draws = s.draws
      ∧ s'.out = s.out ++ [⟨.ok, 0x00, []⟩]
      ∧ (s.c.val + data.length ≤ 128 → s'.h = s.h)
      ∧ ∀ a, (∀ k, k < data.length → (s.c.val + k) % 128 ≠ a) → Memory.read s'.buf a = Memory.read s.buf a

/-- R135: however a byte sequence is cut into UPDATE commands, the state they leave is that of one UPDATE with all of it,
but for the responses: one OK for each command. -/
def Obligations.ChunkingNeverChangesTheContext : Prop :=
  ∀ (chunks : List (List Byte)) (s : State), s.mode = .streaming → s.t.toNat + chunks.flatten.length ≤ 2 ^ 64 - 1 →
    ∃ s', exec (.update chunks.flatten) s = .next s'
      ∧ execAll (chunks.map .update) s
        = .next { s' with out := s.out ++ List.replicate chunks.length ⟨.ok, 0x00, []⟩ }

/-- R35, R137: after an accepted INIT and any accepted UPDATE commands: `1 <= outlen <= 64`; `c` is the function of `t` of
R35 (c); `t` is 128 for a key plus the bytes sent; `h` is what `(t - c) / 128` non-final compressions of the stream's
blocks give; the rest of the stream is in the buffer. -/
def Obligations.StreamingContextIsAFunctionOfTheBytesSent : Prop :=
  ∀ (key : List Byte) (nn : Byte) (chunks : List (List Byte)) (s : State),
    key.length ≤ 64 → 1 ≤ nn.toNat → nn.toNat ≤ 64 → (hashedStream key chunks.flatten).length ≤ 2 ^ 64 - 1 →
    ∃ s', execAll (.init (BitVec.ofNat 8 key.length) nn key :: chunks.map .update) s = .next s'
      ∧ s'.mode = .streaming ∧ s'.outlen.val = nn.toNat ∧ FillMatchesCounter s'
      ∧ s'.t.toNat = (if key = [] then 0 else 128) + chunks.flatten.length
      ∧ s'.h = chain (initialHash (BitVec.ofNat 8 key.length) nn) 0#64 (hashedStream key chunks.flatten)
          ((s'.t.toNat - s'.c.val) / 128)
      ∧ memRead s'.buf 0 s'.c.val = (hashedStream key chunks.flatten).drop (s'.t.toNat - s'.c.val)

/-! ### FINAL -/

/-- R154, R232: FINAL outside STREAMING (no INIT yet, or a second FINAL) raises StateError with the mode's code; it runs
no compression, gives no digest and changes nothing else. -/
def Obligations.FinalIsRefusedOutsideStreaming : Prop :=
  ∀ s : State, s.mode ≠ .streaming →
    exec .final s = .next { s with out := s.out ++ [⟨.stateError, if s.mode = .idle then 0x00 else 0x02, []⟩] }

/-- R150, R151, R153: FINAL in STREAMING zeroes the buffer's offsets `c` to 127 and no other, compresses it once with
`f = 1` under the unchanged `t`, sets the mode FINALIZED and leaves `c`, `t`, `outlen` and everything else as they were. -/
def Obligations.FinalCompressesThePaddedBlock : Prop :=
  ∀ s : State, s.mode = .streaming →
    ∃ s', exec .final s = .next s'
      ∧ (∀ a, Memory.read s'.buf a = if s.c.val ≤ a ∧ a < 128 then 0x00#8 else Memory.read s.buf a)
      ∧ s'.h = compressWords s.h (wordsOfBlock (memRead s.buf 0 s.c.val ++ zeros (128 - s.c.val))) s.t true
      ∧ s'.mode = .finalized ∧ s'.c = s.c ∧ s'.t = s.t ∧ s'.outlen = s.outlen
      ∧ s'.input = s.input ∧ s'.resetIn = s.resetIn ∧ s'.draws = s.draws
      ∧ ∃ digest : List Byte, s'.out = s.out ++ [⟨.ok, BitVec.ofNat 8 s.outlen.val, digest⟩]

/-- R53, R152: the response to FINAL is OK with `info = outlen` and `outlen` data bytes; byte `i` is
`(h[i div 8] >> (8·(i mod 8))) mod 256` of the `h` after the final compression. -/
def Obligations.DigestIsTheLittleEndianPrefixOfTheHash : Prop :=
  ∀ s : State, s.mode = .streaming →
    ∃ s' r, exec .final s = .next s' ∧ s'.out = s.out ++ [r] ∧ r.status = .ok ∧ r.info.toNat = s.outlen.val
      ∧ r.data.length = s.outlen.val
      ∧ ∀ (i : Nat) (hi : i < r.data.length) (hw : i / 8 < 8),
          r.data[i].toNat = (s'.h[i / 8].toNat >>> (8 * (i % 8))) % 256

/-- R116, R269: nothing wipes the key: after a keyed INIT, FINAL and an INIT without a key, the key bytes are still in
the buffer. -/
def Obligations.KeyBytesStayInTheBuffer : Prop :=
  ∀ (klen nn nn' : Byte) (key : List Byte) (s : State), 1 ≤ klen.toNat → klen.toNat ≤ 64 → 1 ≤ nn.toNat →
    nn.toNat ≤ 64 → 1 ≤ nn'.toNat → nn'.toNat ≤ 64 → key.length = klen.toNat →
    ∃ s', execAll [.init klen nn key, .final, .init 0 nn' []] s = .next s' ∧ memRead s'.buf 0 key.length = key

/-! ### COMPRESS and G -/

/-- R172, R173: the working vector before the rounds, word by word. -/
def Obligations.WorkingVectorCarriesCountAndFinalFlag : Prop :=
  ∀ (h : Vector Word 8) (t : Word) (f : Bool),
    (∀ i : Fin 8, (maskV t f (vinit h))[i.val] = h[i]) ∧ (∀ i : Fin 4, (maskV t f (vinit h))[8 + i.val] = IV[i.val])
      ∧ (maskV t f (vinit h))[12] = IV[4] ^^^ t
      ∧ (maskV t f (vinit h))[13] = IV[5]
      ∧ (maskV t f (vinit h))[14] = (if f then ~~~IV[6] else IV[6])
      ∧ (maskV t f (vinit h))[15] = IV[7]

/-- R174, R175, R177, R180, R213, R214: COMPRESS is the flattened schedule of 96 G operations on the masked vector, folded back
into `h`. -/
def Obligations.CompressRunsTheFlattenedSchedule : Prop :=
  ∀ (h : Vector Word 8) (m : Vector Word 16) (t : Word) (f : Bool) (i : Fin 8),
    (compressWords h m t f)[i]
      = h[i] ^^^ ((List.range 96).foldl (scheduleStep m) (maskV t f (vinit h)))[i.val]
          ^^^ ((List.range 96).foldl (scheduleStep m) (maskV t f (vinit h)))[i.val + 8]

/-- R176: within a round the four G operations of the column step give the same result in every order, and so do the four
of the diagonal step. -/
def Obligations.OperationsOfOneHalfRoundCommute : Prop :=
  ∀ (m v : Vector Word 16) (r : Nat) (order : List Nat),
    (order.Perm [0, 1, 2, 3] → order.foldl (gOperation m r) v = [0, 1, 2, 3].foldl (gOperation m r) v)
    ∧ (order.Perm [4, 5, 6, 7] → order.foldl (gOperation m r) v = [4, 5, 6, 7].foldl (gOperation m r) v)

/-- R190: G on four different indices: the eight lines with their rotation amounts, and no other word of the vector
changes. -/
def Obligations.MixingPrimitiveFollowsItsEightLines : Prop :=
  ∀ (a b c d : Fin 16) (x y : Word) (v : Vector Word 16), [a, b, c, d].Nodup →
    let va1 := v[a] + v[b] + x
    let vd1 := (v[d] ^^^ va1).rotateRight 32
    let vc1 := v[c] + vd1
    let vb1 := (v[b] ^^^ vc1).rotateRight 24
    let va2 := va1 + vb1 + y
    let vd2 := (vd1 ^^^ va2).rotateRight 16
    let vc2 := vc1 + vd2
    let vb2 := (vb1 ^^^ vc2).rotateRight 63
    (applyG a b c d x y v)[a] = va2 ∧ (applyG a b c d x y v)[b] = vb2 ∧ (applyG a b c d x y v)[c] = vc2
      ∧ (applyG a b c d x y v)[d] = vd2
      ∧ ∀ i : Fin 16, i ∉ [a, b, c, d] → (applyG a b c d x y v)[i] = v[i]

/-- R191: bit `i` of `rotr64(x, n)` is bit `(i + n) mod 64` of `x`, for the four amounts the engine uses. -/
def Obligations.RotationMovesEveryBit : Prop :=
  ∀ (x : Word) (n : Nat) (i : Fin 64), n ∈ [32, 24, 16, 63] →
    (rotr64 x n).getLsbD i.val = x.getLsbD ((i.val + n) % 64)
      ∧ (rotr64 x n).toNat = (x.toNat >>> n) ||| ((x.toNat <<< (64 - n)) % 2 ^ 64)

/-- R192, R193: addition is modulo 2^64, commutative and associative; XOR is bit by bit. -/
def Obligations.WordAdditionWrapsAndXorIsBitwise : Prop :=
  ∀ p q r : Word, (add64 p q).toNat = (p.toNat + q.toNat) % 2 ^ 64 ∧ add64 p q = add64 q p
    ∧ add64 (add64 p q) r = add64 p (add64 q r)
    ∧ (∀ i : Fin 64, (xor64 p q).getLsbD i.val = (p.getLsbD i.val ^^ q.getLsbD i.val))
    ∧ xor64 p 0xFFFFFFFFFFFFFFFF#64 = ~~~p

/-- R212: every row of SIGMA is a permutation of 0..15, row 0 is the identity, and rounds 10 and 11 use rows 0 and 1. (The
table's values are general knowledge in the spec, log entry 5.) -/
def Obligations.SigmaRowsArePermutations : Prop :=
  (∀ row : Fin 10, SIGMA[row].toList.Perm (List.finRange 16)) ∧ SIGMA[0].toList = List.finRange 16
    ∧ sigmaRow 10 = SIGMA[0] ∧ sigmaRow 11 = SIGMA[1]

/-! ### Errors and the protocol -/

/-- R235: which command can raise what, the undecodable word among them; in STREAMING, UPDATE fails only by
CounterOverflow and FINAL cannot fail. -/
def Obligations.OnlyTheseCommandsRaiseTheseErrors : Prop :=
  (∀ s : State, ∃ s' r, execIllegal s = .next s' ∧ s'.out = s.out ++ [r] ∧ r.status = .illegalCommand) ∧
  ∀ (i : Instr) (s : State), ∃ s' r, exec i s = .next s' ∧ s'.out = s.out ++ [r] ∧
    match i with
    | .init _ _ _ => r.status = .ok ∨ r.status = .invalidParameter
    | .update _ => r.status = .ok ∨ (r.status = .stateError ∧ s.mode ≠ .streaming)
        ∨ (r.status = .counterOverflow ∧ s.mode = .streaming)
    | .final => r.status = .ok ∨ (r.status = .stateError ∧ s.mode ≠ .streaming)

/-- R263: the mode after each command, accepted or refused, and after an illegal word, from each mode: the engine's
whole control flow. -/
def Obligations.ModeFollowsTheProtocolTable : Prop :=
  (∀ s : State, ∃ s' r, execIllegal s = .next s' ∧ s'.out = s.out ++ [r]
    ∧ s'.mode = s.mode ∧ r.status = .illegalCommand) ∧
  ∀ (i : Instr) (s : State), ∃ s' r, exec i s = .next s' ∧ s'.out = s.out ++ [r] ∧
    match i, s.mode with
    | .init klen nn _, mode =>
      if 1 ≤ nn.toNat ∧ nn.toNat ≤ 64 ∧ klen.toNat ≤ 64 then s'.mode = .streaming ∧ r.status = .ok
      else s'.mode = mode ∧ r.status = .invalidParameter
    | .update _, .idle => s'.mode = .idle ∧ r.status = .stateError
    | .update _, .streaming => s'.mode = .streaming ∧ (r.status = .ok ∨ r.status = .counterOverflow)
    | .update _, .finalized => s'.mode = .finalized ∧ r.status = .stateError
    | .final, .idle => s'.mode = .idle ∧ r.status = .stateError
    | .final, .streaming => s'.mode = .finalized ∧ r.status = .ok
    | .final, .finalized => s'.mode = .finalized ∧ r.status = .stateError

/-! ### Whole messages -/

/-- R3, R35, R150, R270: INIT, any cutting of the message into UPDATE commands, FINAL, from any state: every response but
the last is a plain OK, and the last carries the digest of the whole message as one function computes it: `1 + ceil(L/128)`
compressions with a key, `max(1, ceil(L/128))` without, all but the last non-final. -/
def Obligations.CommandSequenceAnswersTheHashOfItsMessage : Prop :=
  ∀ (key : List Byte) (nn : Byte) (chunks : List (List Byte)) (s : State),
    key.length ≤ 64 → 1 ≤ nn.toNat → nn.toNat ≤ 64 → (hashedStream key chunks.flatten).length ≤ 2 ^ 64 - 1 →
    ∃ s', execAll (.init (BitVec.ofNat 8 key.length) nn key :: chunks.map .update ++ [.final]) s = .next s'
      ∧ s'.mode = .finalized
      ∧ s'.out = s.out ++ List.replicate (chunks.length + 1) ⟨.ok, 0x00, []⟩
          ++ [⟨.ok, nn, hashOf key nn chunks.flatten⟩]

/-- R95: the engine run on the assembled bytes of `HASH message` answers OK to every command but the last and then the
64-byte hash of the message without a key; nothing of the stream is left. (R95 lets the message be cut anywhere; that the
pieces are full 65535-byte cuts, and so the number `n` of them, is the model's choice, log entry 14.) -/
def Obligations.HashPseudoCommandAnswersTheHash : Prop :=
  ∀ (message : List Byte) (s : State), message.length ≤ 2 ^ 64 - 1 → s.resetIn = false →
    s.input = assembleLine (.hash message) →
    let n := (message.length + 65534) / 65535
    ∃ s', Host.Core.run core (n + 2) s = .next s' ∧ s'.input = [] ∧ s'.mode = .finalized
      ∧ s'.out = s.out ++ List.replicate (n + 1) ⟨.ok, 0x00, []⟩ ++ [⟨.ok, 0x40, hashOf [] 0x40 message⟩]
end

