-- ==== Sys2Proof/Laws/Compress.lean ====
section
/-! SUPPORT. The word operations in the library's terms, and G's effect on one word of the working vector. -/

namespace Sys2Proof.Machine

/-- The engine's rotation is the library's (R191). -/
theorem rotr64_eq_rotateRight (x : Word) (n : Nat) (h : n < 64) : rotr64 x n = x.rotateRight n := by
  rw [rotr64, BitVec.rotateRight_def, Nat.mod_eq_of_lt h]

/-- What G leaves in each word of the vector (R190). -/
theorem applyG_get (a b c d : Fin 16) (x y : Word) (v : Vector Word 16) (i : Fin 16) :
    (applyG a b c d x y v)[i] =
      if i = d then (mixG v[a] v[b] v[c] v[d] x y).2.2.2
      else if i = c then (mixG v[a] v[b] v[c] v[d] x y).2.2.1
      else if i = b then (mixG v[a] v[b] v[c] v[d] x y).2.1
      else if i = a then (mixG v[a] v[b] v[c] v[d] x y).1
      else v[i] := by
  simp only [applyG, Fin.getElem_fin, Vector.getElem_set, Fin.ext_iff, eq_comm]

end Sys2Proof.Machine
end

