-- ==== Sys2Proof/Laws/Decode.lean ====
section
/-! SUPPORT. The decoder's parts, each said once: how much has arrived, a header read back from its bytes, and the
header of an encoded command. -/

namespace Sys2Proof

theorem hasBytes_eq (n : Nat) (bs : List Byte) : hasBytes n bs = decide (n ≤ bs.length) := by
  induction n generalizing bs with
  | zero => simp [hasBytes]
  | succ n ih => cases bs <;> simp [hasBytes, ih]

/-- The command word of the four header bytes of a word is that word (R81). -/
theorem commandWord_wordBytes (cw : BitVec 32) :
    commandWord (cw.extractLsb' 0 8) (cw.extractLsb' 8 8) (cw.extractLsb' 16 8) (cw.extractLsb' 24 8) = cw := by
  apply BitVec.eq_of_toNat_eq
  have := cw.isLt
  simp only [commandWord, BitVec.toNat_append, BitVec.extractLsb'_toNat, Nat.shiftRight_eq_div_pow]
  rw [← Nat.shiftLeft_add_eq_or_of_lt (by omega), ← Nat.shiftLeft_add_eq_or_of_lt (by omega),
    ← Nat.shiftLeft_add_eq_or_of_lt (by omega)]
  simp only [Nat.shiftLeft_eq]
  omega

theorem wordBytes_commandWord (s0 s1 s2 s3 : Byte) : wordBytes (commandWord s0 s1 s2 s3) = [s0, s1, s2, s3] := by
  have h0 := s0.isLt; have h1 := s1.isLt; have h2 := s2.isLt; have h3 := s3.isLt
  have ht : (commandWord s0 s1 s2 s3).toNat = s3.toNat * 2 ^ 24 + s2.toNat * 2 ^ 16 + s1.toNat * 2 ^ 8 + s0.toNat := by
    simp only [commandWord, BitVec.toNat_append]
    rw [← Nat.shiftLeft_add_eq_or_of_lt (by omega), ← Nat.shiftLeft_add_eq_or_of_lt (by omega),
      ← Nat.shiftLeft_add_eq_or_of_lt (by omega)]
    simp only [Nat.shiftLeft_eq]; omega
  simp only [wordBytes, List.cons.injEq, and_true]
  refine ⟨?_, ?_, ?_, ?_⟩ <;> apply BitVec.eq_of_toNat_eq <;>
    simp only [BitVec.extractLsb'_toNat, ht, Nat.shiftRight_eq_div_pow] <;> omega

/-- The header of a command, as the decoder names it. -/
def headerOf : Instr → Header
  | .init klen nn _ => .init klen nn
  | .update data => .update (BitVec.ofNat 16 data.length)
  | .final => .final

/-- A masked word in terms of its numeric value: the test of R86. -/
theorem mask_high (cw : BitVec 32) (k : Nat) (hk : k < 2 ^ 16) :
    cw &&& 0xFFFF0000#32 = BitVec.ofNat 32 (k * 2 ^ 16) ↔ cw.toNat / 2 ^ 16 = k := by
  have hlt := cw.isLt
  have hm : (cw &&& 0xFFFF0000#32).toNat = cw.toNat / 2 ^ 16 * 2 ^ 16 := by
    have hsplit : cw &&& 0xFFFF0000#32 = (cw >>> 16) <<< 16 := by
      ext i hi
      simp only [BitVec.getElem_and, BitVec.getElem_shiftLeft, BitVec.getElem_ushiftRight]
      interval_cases i <;> simp [BitVec.getLsbD_eq_getElem]
    rw [hsplit, BitVec.toNat_shiftLeft, BitVec.toNat_ushiftRight, Nat.shiftRight_eq_div_pow, Nat.shiftLeft_eq]
    omega
  rw [← BitVec.toNat_inj, hm, BitVec.toNat_ofNat]
  omega

/-- The tests of R86 on the numeric value of the word. -/
theorem decodeHeader_eq (cw : BitVec 32) :
    decodeHeader cw = if cw.toNat / 2 ^ 16 = 0x0100 then .init (cw.extractLsb' 8 8) (cw.extractLsb' 0 8)
      else if cw.toNat / 2 ^ 16 = 0x0200 then .update (cw.extractLsb' 0 16)
      else if cw.toNat = 0x03000000 then .final else .illegal := by
  have h1 := mask_high cw 0x0100 (by omega)
  have h2 := mask_high cw 0x0200 (by omega)
  have h3 : cw = 0x03000000#32 ↔ cw.toNat = 0x03000000 := by rw [← BitVec.toNat_inj]; rfl
  simp only [decodeHeader]
  simp only [show (0x01000000#32) = BitVec.ofNat 32 (0x0100 * 2 ^ 16) from rfl,
    show (0x02000000#32) = BitVec.ofNat 32 (0x0200 * 2 ^ 16) from rfl, h1, h2, h3]

/-- The decoder reads the header of an encoded command back (R83 to R86). -/
theorem decodeHeader_encodeWord (i : Instr) : decodeHeader (encodeWord i) = headerOf i := by
  cases i with
  | init klen nn key =>
    have h1 := klen.isLt; have h2 := nn.isLt
    have ht : (encodeWord (.init klen nn key)).toNat = 0x0100 * 2 ^ 16 + klen.toNat * 2 ^ 8 + nn.toNat := by
      simp only [encodeWord, BitVec.toNat_append]
      rw [← Nat.shiftLeft_add_eq_or_of_lt (by omega), ← Nat.shiftLeft_add_eq_or_of_lt (by omega),
        ← Nat.shiftLeft_add_eq_or_of_lt (by decide)]
      simp only [Nat.shiftLeft_eq, BitVec.toNat_ofNat]; omega
    rw [decodeHeader_eq, if_pos (by omega), headerOf]
    congr 1 <;> apply BitVec.eq_of_toNat_eq <;>
      rw [BitVec.extractLsb'_toNat, ht, Nat.shiftRight_eq_div_pow] <;> omega
  | update data =>
    have ht : (encodeWord (.update data)).toNat = 0x0200 * 2 ^ 16 + data.length % 2 ^ 16 := by
      simp only [encodeWord, BitVec.toNat_append]
      rw [← Nat.shiftLeft_add_eq_or_of_lt (by simp only [BitVec.toNat_ofNat]; omega),
        ← Nat.shiftLeft_add_eq_or_of_lt (by decide)]
      simp only [Nat.shiftLeft_eq, BitVec.toNat_ofNat]
    rw [decodeHeader_eq, if_neg (by omega), if_pos (by omega), headerOf]
    congr 1; apply BitVec.eq_of_toNat_eq
    rw [BitVec.extractLsb'_toNat, ht, Nat.shiftRight_eq_div_pow, BitVec.toNat_ofNat]; omega
  | final => rfl

/-- What `fetch` answers once four bytes have arrived. -/
theorem fetch_cons (s0 s1 s2 s3 : Byte) (rest : List Byte) :
    fetch (s0 :: s1 :: s2 :: s3 :: rest) =
      if payloadLength (decodeHeader (commandWord s0 s1 s2 s3)) ≤ rest.length then
        match assembleCommand (decodeHeader (commandWord s0 s1 s2 s3))
            (rest.take (payloadLength (decodeHeader (commandWord s0 s1 s2 s3)))) with
        | some i => .command i (rest.drop (payloadLength (decodeHeader (commandWord s0 s1 s2 s3))))
        | none => .illegal (commandWord s0 s1 s2 s3)
            (rest.drop (payloadLength (decodeHeader (commandWord s0 s1 s2 s3))))
      else .incomplete := by
  simp only [fetch, hasBytes_eq, decide_eq_true_eq] <;> rfl

/-- Fewer than four bytes are no command yet (R90). -/
theorem fetch_short (bs : List Byte) (h : bs.length < 4) : fetch bs = .incomplete := by
  match bs, h with
  | [], _ | [_], _ | [_, _], _ | [_, _, _], _ => rfl

end Sys2Proof
end

