-- ==== Sys2Proof/Laws/Memory.lean ====
section
/-! SUPPORT. What the buffer operations do: reading after writing, the canonical form kept by every write, and equal
reads meaning equal buffers. -/

namespace Sys2Proof.Machine

@[simp] theorem read_nil (a : Nat) : Memory.read [] a = unlistedByte := rfl

theorem read_cons (k : Nat) (x : Byte) (m : Memory) (a : Nat) :
    Memory.read ((k, x) :: m) a = if k = a then x else Memory.read m a := rfl

theorem read_erase (m : Memory) (a a' : Nat) :
    Memory.read (Memory.erase m a) a' = if a' = a then unlistedByte else Memory.read m a' := by
  induction m with
  | nil => simp [Memory.erase]
  | cons p m ih =>
    obtain ⟨k, x⟩ := p
    simp only [Memory.erase] at ih
    by_cases hk : k = a <;> by_cases ha : k = a' <;> simp_all [Memory.erase, read_cons]

theorem read_insert (m : Memory) (a : Nat) (b : Byte) (a' : Nat) (hm : ∀ p ∈ m, p.1 ≠ a) :
    Memory.read (Memory.insert m a b) a' = if a' = a then b else Memory.read m a' := by
  induction m with
  | nil => simp [Memory.insert, read_cons, eq_comm]
  | cons p m ih =>
    obtain ⟨k, x⟩ := p
    have hk : k ≠ a := hm (k, x) (by simp)
    have := ih fun p hp => hm p (by simp [hp])
    unfold Memory.insert
    split <;> simp only [read_cons, this] <;> grind

/-- A byte written is the byte read back, and no other offset changes (R58, R64). -/
@[simp] theorem read_write (m : Memory) (a : Nat) (b : Byte) (a' : Nat) :
    Memory.read (Memory.write m a b) a' = if a' = a then b else Memory.read m a' := by
  unfold Memory.write
  split
  · rename_i h; rw [read_erase, h]
  · rw [read_insert _ _ _ _ (by simp [Memory.erase]), read_erase]; grind

theorem read_memWrite (m : Memory) (off : Nat) (s : List Byte) (a : Nat) :
    Memory.read (memWrite m off s) a
      = if h : off ≤ a ∧ a - off < s.length then s[a - off]'h.2 else Memory.read m a := by
  induction s generalizing m off with
  | nil => simp [memWrite]
  | cons b s ih =>
    rw [memWrite, ih]
    by_cases h1 : a = off
    · subst h1; simp
    · by_cases h2 : off + 1 ≤ a ∧ a - (off + 1) < s.length
      · have : a - off = (a - (off + 1)) + 1 := by omega
        rw [dif_pos h2, dif_pos ⟨by omega, by simp; omega⟩]
        simp [this]
      · rw [dif_neg h2, dif_neg (by simp; omega)]; simp [h1]

/-- What a write of a byte sequence leaves: the sequence inside, everything else as it was (R64). -/
theorem read_memWrite_of_lt (m : Memory) (off : Nat) (s : List Byte) (a : Nat) (h : a < off) :
    Memory.read (memWrite m off s) a = Memory.read m a := by
  rw [read_memWrite, dif_neg (by omega)]

theorem read_memWrite_of_ge (m : Memory) (off : Nat) (s : List Byte) (a : Nat) (h : off + s.length ≤ a) :
    Memory.read (memWrite m off s) a = Memory.read m a := by
  rw [read_memWrite, dif_neg (by omega)]

@[simp] theorem memWrite_nil (m : Memory) (off : Nat) : memWrite m off [] = m := rfl

theorem memWrite_append (m : Memory) (off : Nat) (s s' : List Byte) :
    memWrite m off (s ++ s') = memWrite (memWrite m off s) (off + s.length) s' := by
  induction s generalizing m off with
  | nil => rfl
  | cons b s ih => simp [memWrite, ih, Nat.add_assoc, Nat.add_comm 1]

@[simp] theorem zeros_length (n : Nat) : (zeros n).length = n := by simp [zeros]

@[simp] theorem zeros_getElem (n i : Nat) (h : i < (zeros n).length) : (zeros n)[i] = 0#8 := by simp [zeros]

@[simp] theorem memRead_length (m : Memory) (off n : Nat) : (memRead m off n).length = n := by simp [memRead]

@[simp] theorem memRead_getElem (m : Memory) (off n i : Nat) (h : i < (memRead m off n).length) :
    (memRead m off n)[i] = Memory.read m (off + i) := by simp [memRead]

theorem wf_nil : Memory.wf [] := ⟨List.Pairwise.nil, by simp⟩

theorem wf_erase (m : Memory) (a : Nat) (h : Memory.wf m) : Memory.wf (Memory.erase m a) :=
  ⟨h.1.filter _, fun p hp => h.2 p (List.mem_of_mem_filter hp)⟩

theorem mem_insert (m : Memory) (a : Nat) (b : Byte) (p : Host.Cell) :
    p ∈ Memory.insert m a b ↔ p = (a, b) ∨ p ∈ m := by
  induction m with
  | nil => simp [Memory.insert]
  | cons q m ih =>
    obtain ⟨k, x⟩ := q
    unfold Memory.insert
    split <;> simp [ih]
    tauto

theorem insert_pairwise (m : Memory) (a : Nat) (b : Byte) (h : m.Pairwise fun p q => p.1 < q.1)
    (hm : ∀ p ∈ m, p.1 ≠ a) : (Memory.insert m a b).Pairwise fun p q => p.1 < q.1 := by
  induction m with
  | nil => simp [Memory.insert]
  | cons q m ih =>
    obtain ⟨k, x⟩ := q
    obtain ⟨hq, hrest⟩ := List.pairwise_cons.1 h
    have hk : k ≠ a := hm (k, x) (by simp)
    unfold Memory.insert
    split
    · rename_i hlt
      exact List.pairwise_cons.2 ⟨fun p hp => by
        rcases List.mem_cons.1 hp with rfl | hp
        · exact hlt
        · exact Nat.lt_trans hlt (hq p hp), h⟩
    · refine List.pairwise_cons.2 ⟨fun p hp => ?_, ih hrest fun p hp => hm p (by simp [hp])⟩
      rcases (mem_insert m a b p).1 hp with rfl | hp
      · simp only; omega
      · exact hq p hp

/-- Every write inside the address space keeps the canonical form. -/
theorem wf_write (m : Memory) (a : Nat) (b : Byte) (h : Memory.wf m) (ha : a < Config.blockBytes) :
    Memory.wf (Memory.write m a b) := by
  unfold Memory.write
  split
  · exact wf_erase m a h
  · rename_i hb
    have he := wf_erase m a h
    refine ⟨insert_pairwise _ a b he.1 (by simp [Memory.erase]), fun p hp => ?_⟩
    rcases (mem_insert _ a b p).1 hp with rfl | hp
    · exact ⟨ha, hb⟩
    · exact he.2 p hp

theorem wf_memWrite (m : Memory) (off : Nat) (s : List Byte) (h : Memory.wf m) (hs : off + s.length ≤ Config.blockBytes) :
    Memory.wf (memWrite m off s) := by
  induction s generalizing m off with
  | nil => exact h
  | cons b s ih =>
    simp only [List.length_cons] at hs
    exact ih _ _ (wf_write m off b h (by omega)) (by omega)

/-- In canonical form the listed entries are exactly the offsets that read as something else than `unlistedByte`. -/
theorem mem_iff_read (m : Memory) (h : Memory.wf m) (a : Nat) (b : Byte) :
    (a, b) ∈ m ↔ Memory.read m a = b ∧ b ≠ unlistedByte := by
  induction m with
  | nil => simp only [read_nil, List.not_mem_nil, false_iff]; rintro ⟨h1, h2⟩; exact h2 h1.symm
  | cons p m ih =>
    obtain ⟨k, x⟩ := p
    obtain ⟨hp, hrest⟩ := List.pairwise_cons.1 h.1
    have hx := h.2 (k, x) (by simp)
    have ih := ih ⟨hrest, fun q hq => h.2 q (by simp [hq])⟩
    have hk : ∀ y, (k, y) ∉ m := fun y hy => absurd (hp _ hy) (by simp)
    rw [List.mem_cons, read_cons, ih]
    by_cases hka : k = a
    · subst hka
      have := hk b
      rw [ih] at this
      simp only [Prod.mk.injEq, true_and, if_true]
      constructor
      · rintro (rfl | h') <;> [exact ⟨rfl, hx.2⟩; exact absurd h' this]
      · rintro ⟨rfl, -⟩; exact .inl rfl
    · simp [hka, Ne.symm hka]

/-- Two buffers in canonical form that read alike at every offset are equal. -/
theorem wf_ext (m m' : Memory) (h : Memory.wf m) (h' : Memory.wf m')
    (hr : ∀ a, a < Config.blockBytes → Memory.read m a = Memory.read m' a) : m = m' := by
  have hiff : ∀ p, p ∈ m ↔ p ∈ m' := by
    rintro ⟨a, b⟩
    by_cases ha : a < Config.blockBytes
    · rw [mem_iff_read m h, mem_iff_read m' h', hr a ha]
    · exact ⟨fun hp => absurd (h.2 _ hp).1 ha, fun hp => absurd (h'.2 _ hp).1 ha⟩
  have nd : ∀ {l : Memory}, Memory.wf l → l.Nodup := fun hl => hl.1.imp (fun hlt he => by rw [he] at hlt; exact Nat.lt_irrefl _ hlt)
  have perm : m.Perm m' := (List.perm_ext_iff_of_nodup (nd h) (nd h')).2 hiff
  exact perm.eq_of_pairwise (le := fun p q => p.1 < q.1) (fun a b _ _ h1 h2 => absurd h1 (by omega)) h.1 h'.1

end Sys2Proof.Machine
end

