-- ==== Sys2Proof/Laws/State.lean ====
section
/-! SUPPORT. One lemma per field for every named update of the state, so that no later proof unfolds a record update. -/

namespace Sys2Proof.Machine

@[simp] theorem respond_h (status : Status) (info : Byte) (data : List Byte) (s : State) : (respond status info data s).h = s.h := rfl
@[simp] theorem respond_buf (status : Status) (info : Byte) (data : List Byte) (s : State) : (respond status info data s).buf = s.buf := rfl
@[simp] theorem respond_c (status : Status) (info : Byte) (data : List Byte) (s : State) : (respond status info data s).c = s.c := rfl
@[simp] theorem respond_t (status : Status) (info : Byte) (data : List Byte) (s : State) : (respond status info data s).t = s.t := rfl
@[simp] theorem respond_outlen (status : Status) (info : Byte) (data : List Byte) (s : State) : (respond status info data s).outlen = s.outlen := rfl
@[simp] theorem respond_mode (status : Status) (info : Byte) (data : List Byte) (s : State) : (respond status info data s).mode = s.mode := rfl
@[simp] theorem respond_input (status : Status) (info : Byte) (data : List Byte) (s : State) : (respond status info data s).input = s.input := rfl
@[simp] theorem respond_out (status : Status) (info : Byte) (data : List Byte) (s : State) : (respond status info data s).out = s.out ++ [⟨status, info, data⟩] := rfl
@[simp] theorem respond_resetIn (status : Status) (info : Byte) (data : List Byte) (s : State) : (respond status info data s).resetIn = s.resetIn := rfl
@[simp] theorem respond_draws (status : Status) (info : Byte) (data : List Byte) (s : State) : (respond status info data s).draws = s.draws := rfl

@[simp] theorem compress_h (f : Bool) (s : State) : (compress f s).h = compressWords s.h (loadM s.buf) s.t f := rfl
@[simp] theorem compress_buf (f : Bool) (s : State) : (compress f s).buf = s.buf := rfl
@[simp] theorem compress_c (f : Bool) (s : State) : (compress f s).c = s.c := rfl
@[simp] theorem compress_t (f : Bool) (s : State) : (compress f s).t = s.t := rfl
@[simp] theorem compress_outlen (f : Bool) (s : State) : (compress f s).outlen = s.outlen := rfl
@[simp] theorem compress_mode (f : Bool) (s : State) : (compress f s).mode = s.mode := rfl
@[simp] theorem compress_input (f : Bool) (s : State) : (compress f s).input = s.input := rfl
@[simp] theorem compress_out (f : Bool) (s : State) : (compress f s).out = s.out := rfl
@[simp] theorem compress_resetIn (f : Bool) (s : State) : (compress f s).resetIn = s.resetIn := rfl
@[simp] theorem compress_draws (f : Bool) (s : State) : (compress f s).draws = s.draws := rfl

@[simp] theorem absorbBytes_h (bytes : List Byte) (s : State) : (absorbBytes bytes s).h = s.h := rfl
@[simp] theorem absorbBytes_buf (bytes : List Byte) (s : State) : (absorbBytes bytes s).buf = memWrite s.buf s.c.val bytes := rfl
@[simp] theorem absorbBytes_c (bytes : List Byte) (s : State) : (absorbBytes bytes s).c = advanceFill s.c bytes.length := rfl
@[simp] theorem absorbBytes_t (bytes : List Byte) (s : State) : (absorbBytes bytes s).t = advanceCounter s.t bytes.length := rfl
@[simp] theorem absorbBytes_outlen (bytes : List Byte) (s : State) : (absorbBytes bytes s).outlen = s.outlen := rfl
@[simp] theorem absorbBytes_mode (bytes : List Byte) (s : State) : (absorbBytes bytes s).mode = s.mode := rfl
@[simp] theorem absorbBytes_input (bytes : List Byte) (s : State) : (absorbBytes bytes s).input = s.input := rfl
@[simp] theorem absorbBytes_out (bytes : List Byte) (s : State) : (absorbBytes bytes s).out = s.out := rfl
@[simp] theorem absorbBytes_resetIn (bytes : List Byte) (s : State) : (absorbBytes bytes s).resetIn = s.resetIn := rfl
@[simp] theorem absorbBytes_draws (bytes : List Byte) (s : State) : (absorbBytes bytes s).draws = s.draws := rfl

@[simp] theorem padBlock_h (s : State) : (padBlock s).h = s.h := rfl
@[simp] theorem padBlock_buf (s : State) : (padBlock s).buf = memWrite s.buf s.c.val (zeros (Config.blockBytes - s.c.val)) := rfl
@[simp] theorem padBlock_c (s : State) : (padBlock s).c = s.c := rfl
@[simp] theorem padBlock_t (s : State) : (padBlock s).t = s.t := rfl
@[simp] theorem padBlock_outlen (s : State) : (padBlock s).outlen = s.outlen := rfl
@[simp] theorem padBlock_mode (s : State) : (padBlock s).mode = s.mode := rfl
@[simp] theorem padBlock_input (s : State) : (padBlock s).input = s.input := rfl
@[simp] theorem padBlock_out (s : State) : (padBlock s).out = s.out := rfl
@[simp] theorem padBlock_resetIn (s : State) : (padBlock s).resetIn = s.resetIn := rfl
@[simp] theorem padBlock_draws (s : State) : (padBlock s).draws = s.draws := rfl

@[simp] theorem closeContext_h (s : State) : (closeContext s).h = s.h := rfl
@[simp] theorem closeContext_buf (s : State) : (closeContext s).buf = s.buf := rfl
@[simp] theorem closeContext_c (s : State) : (closeContext s).c = s.c := rfl
@[simp] theorem closeContext_t (s : State) : (closeContext s).t = s.t := rfl
@[simp] theorem closeContext_outlen (s : State) : (closeContext s).outlen = s.outlen := rfl
@[simp] theorem closeContext_mode (s : State) : (closeContext s).mode = .finalized := rfl
@[simp] theorem closeContext_input (s : State) : (closeContext s).input = s.input := rfl
@[simp] theorem closeContext_out (s : State) : (closeContext s).out = s.out ++ [⟨.ok, BitVec.ofNat 8 s.outlen.val, digest s.h s.outlen.val⟩] := rfl
@[simp] theorem closeContext_resetIn (s : State) : (closeContext s).resetIn = s.resetIn := rfl
@[simp] theorem closeContext_draws (s : State) : (closeContext s).draws = s.draws := rfl

@[simp] theorem takeReset_h (s : State) : (takeReset s).h = Config.freeHash s.draws := rfl
@[simp] theorem takeReset_buf (s : State) : (takeReset s).buf = freeBuffer s.draws := by simp only [takeReset]
@[simp] theorem takeReset_c (s : State) : (takeReset s).c = Config.freeFill s.draws := rfl
@[simp] theorem takeReset_t (s : State) : (takeReset s).t = Config.freeCounter s.draws := rfl
@[simp] theorem takeReset_outlen (s : State) : (takeReset s).outlen = Config.freeOutlen s.draws := rfl
@[simp] theorem takeReset_mode (s : State) : (takeReset s).mode = .idle := rfl
@[simp] theorem takeReset_input (s : State) : (takeReset s).input = [] := rfl
@[simp] theorem takeReset_out (s : State) : (takeReset s).out = s.out := rfl
@[simp] theorem takeReset_resetIn (s : State) : (takeReset s).resetIn = false := rfl
@[simp] theorem takeReset_draws (s : State) : (takeReset s).draws = s.draws + 1 := rfl

@[simp] theorem hostSend_h (bytes : List Byte) (s : State) : (hostSend bytes s).h = s.h := rfl
@[simp] theorem hostSend_buf (bytes : List Byte) (s : State) : (hostSend bytes s).buf = s.buf := rfl
@[simp] theorem hostSend_c (bytes : List Byte) (s : State) : (hostSend bytes s).c = s.c := rfl
@[simp] theorem hostSend_t (bytes : List Byte) (s : State) : (hostSend bytes s).t = s.t := rfl
@[simp] theorem hostSend_outlen (bytes : List Byte) (s : State) : (hostSend bytes s).outlen = s.outlen := rfl
@[simp] theorem hostSend_mode (bytes : List Byte) (s : State) : (hostSend bytes s).mode = s.mode := rfl
@[simp] theorem hostSend_input (bytes : List Byte) (s : State) : (hostSend bytes s).input = s.input ++ bytes := rfl
@[simp] theorem hostSend_out (bytes : List Byte) (s : State) : (hostSend bytes s).out = s.out := rfl
@[simp] theorem hostSend_resetIn (bytes : List Byte) (s : State) : (hostSend bytes s).resetIn = s.resetIn := rfl
@[simp] theorem hostSend_draws (bytes : List Byte) (s : State) : (hostSend bytes s).draws = s.draws := rfl

@[simp] theorem hostReset_h (s : State) : (hostReset s).h = s.h := rfl
@[simp] theorem hostReset_buf (s : State) : (hostReset s).buf = s.buf := rfl
@[simp] theorem hostReset_c (s : State) : (hostReset s).c = s.c := rfl
@[simp] theorem hostReset_t (s : State) : (hostReset s).t = s.t := rfl
@[simp] theorem hostReset_outlen (s : State) : (hostReset s).outlen = s.outlen := rfl
@[simp] theorem hostReset_mode (s : State) : (hostReset s).mode = s.mode := rfl
@[simp] theorem hostReset_input (s : State) : (hostReset s).input = s.input := rfl
@[simp] theorem hostReset_out (s : State) : (hostReset s).out = s.out := rfl
@[simp] theorem hostReset_resetIn (s : State) : (hostReset s).resetIn = true := rfl
@[simp] theorem hostReset_draws (s : State) : (hostReset s).draws = s.draws := rfl

@[simp] theorem withFetchWord_h (s : State) (nbits w : Nat) : (State.withFetchWord s nbits w).h = s.h := rfl
@[simp] theorem withFetchWord_buf (s : State) (nbits w : Nat) : (State.withFetchWord s nbits w).buf = s.buf := rfl
@[simp] theorem withFetchWord_c (s : State) (nbits w : Nat) : (State.withFetchWord s nbits w).c = s.c := rfl
@[simp] theorem withFetchWord_t (s : State) (nbits w : Nat) : (State.withFetchWord s nbits w).t = s.t := rfl
@[simp] theorem withFetchWord_outlen (s : State) (nbits w : Nat) : (State.withFetchWord s nbits w).outlen = s.outlen := rfl
@[simp] theorem withFetchWord_mode (s : State) (nbits w : Nat) : (State.withFetchWord s nbits w).mode = s.mode := rfl
@[simp] theorem withFetchWord_input (s : State) (nbits w : Nat) : (State.withFetchWord s nbits w).input = tableBytes nbits w ++ s.input := rfl
@[simp] theorem withFetchWord_out (s : State) (nbits w : Nat) : (State.withFetchWord s nbits w).out = s.out := rfl
@[simp] theorem withFetchWord_resetIn (s : State) (nbits w : Nat) : (State.withFetchWord s nbits w).resetIn = false := rfl
@[simp] theorem withFetchWord_draws (s : State) (nbits w : Nat) : (State.withFetchWord s nbits w).draws = s.draws := rfl

end Sys2Proof.Machine
end

