-- ==== Sys2Proof/Laws/Exec.lean ====
section
/-! SUPPORT. What each meaning answers, case by case, and what a step can do, said once. -/

namespace Sys2Proof.Machine

/-- INIT's operands are legal (R110). -/
def legalInit (klen nn : Byte) : Prop := 1 ≤ nn.toNat ∧ nn.toNat ≤ 64 ∧ klen.toNat ≤ 64

theorem bad_params_iff (klen nn : Byte) : (badNn nn || badKlen klen) = true ↔ ¬ legalInit klen nn := by
  simp only [badNn, badKlen, legalInit, Config.outMax, Config.keyMax, Bool.or_eq_true, decide_eq_true_eq]
  omega

theorem execInit_refused {klen nn : Byte} (key : List Byte) (s : State) (h : ¬ legalInit klen nn) :
    execInit klen nn key s = .next (respond .invalidParameter (paramInfo klen nn) [] s) := by
  rw [execInit, if_pos ((bad_params_iff klen nn).2 h), raise]

theorem execInit_accepted {klen nn : Byte} (key : List Byte) (s : State) (h : legalInit klen nn) :
    execInit klen nn key s = .next (respond .ok 0x00 [] (openContext klen nn key s)) := by
  rw [execInit, if_neg (by rw [bad_params_iff]; exact not_not.2 h)]

theorem execUpdate_wrong_mode (data : List Byte) {s : State} (h : s.mode ≠ .streaming) :
    execUpdate data s = .next (respond .stateError (modeInfo s.mode) [] s) := by
  rw [execUpdate, if_pos h, raise]

theorem execUpdate_overflow {data : List Byte} {s : State} (h : s.mode = .streaming)
    (ht : 2 ^ 64 - 1 < s.t.toNat + data.length) :
    execUpdate data s = .next (respond .counterOverflow 0x00 [] s) := by
  rw [execUpdate, if_neg (by simp [h]), if_pos (by simpa [counterOverflows] using ht), raise]

theorem execUpdate_accepted {data : List Byte} {s : State} (h : s.mode = .streaming)
    (ht : s.t.toNat + data.length ≤ 2 ^ 64 - 1) :
    execUpdate data s = .next (respond .ok 0x00 [] (absorbLoop data.length data s)) := by
  rw [execUpdate, if_neg (by simp [h]), if_neg (by simp only [counterOverflows, decide_eq_true_eq]; omega)]

theorem execFinal_wrong_mode {s : State} (h : s.mode ≠ .streaming) :
    execFinal s = .next (respond .stateError (modeInfo s.mode) [] s) := by
  rw [execFinal, if_pos h, raise]

theorem execFinal_accepted {s : State} (h : s.mode = .streaming) :
    execFinal s = .next (closeContext (compress true (padBlock s))) := by
  rw [execFinal, if_neg (by simp [h])]

/-- Everything a command can do: it is refused with a response and nothing else, or it has its effect. -/
theorem exec_cases (i : Instr) (s : State) :
    (∃ status info, status ≠ .ok ∧ exec i s = .next (respond status info [] s))
      ∨ (∃ klen nn key, i = .init klen nn key ∧ legalInit klen nn
          ∧ exec i s = .next (respond .ok 0x00 [] (openContext klen nn key s)))
      ∨ (∃ data, i = .update data ∧ s.mode = .streaming ∧ s.t.toNat + data.length ≤ 2 ^ 64 - 1
          ∧ exec i s = .next (respond .ok 0x00 [] (absorbLoop data.length data s)))
      ∨ (i = .final ∧ s.mode = .streaming ∧ exec i s = .next (closeContext (compress true (padBlock s)))) := by
  cases i with
  | init klen nn key =>
    by_cases h : legalInit klen nn
    · exact .inr (.inl ⟨klen, nn, key, rfl, h, execInit_accepted key s h⟩)
    · exact .inl ⟨_, _, by simp, execInit_refused key s h⟩
  | update data =>
    by_cases h : s.mode = .streaming
    · by_cases ht : s.t.toNat + data.length ≤ 2 ^ 64 - 1
      · exact .inr (.inr (.inl ⟨data, rfl, h, ht, execUpdate_accepted h ht⟩))
      · exact .inl ⟨_, _, by simp, execUpdate_overflow h (by omega)⟩
    · exact .inl ⟨_, _, by simp, execUpdate_wrong_mode data h⟩
  | final =>
    by_cases h : s.mode = .streaming
    · exact .inr (.inr (.inr ⟨rfl, h, execFinal_accepted h⟩))
    · exact .inl ⟨_, _, by simp, execFinal_wrong_mode h⟩

/-- Everything a step can do when it answers a next state: the reset event, a command, or the refusal of an illegal
word. -/
theorem step_cases {s s' : State} (h : step s = .next s') :
    (s.resetIn = true ∧ s' = takeReset s)
      ∨ (s.resetIn = false ∧ ∃ i rest, fetch s.input = .command i rest ∧ exec i { s with input := rest } = .next s')
      ∨ (s.resetIn = false ∧ ∃ cw rest, fetch s.input = .illegal cw rest
          ∧ s' = respond .illegalCommand 0x00 [] { s with input := rest }) := by
  unfold step at h
  by_cases hr : s.resetIn = true
  · rw [if_pos hr] at h
    exact .inl ⟨hr, (Host.Outcome.next.inj h).symm⟩
  · rw [if_neg hr] at h
    have hr : s.resetIn = false := by simpa using hr
    cases hf : fetch s.input with
    | command i rest => rw [hf] at h; exact .inr (.inl ⟨hr, i, rest, rfl, h⟩)
    | illegal cw rest =>
      rw [hf] at h
      exact .inr (.inr ⟨hr, cw, rest, rfl, (Host.Outcome.next.inj h).symm⟩)
    | incomplete => rw [hf] at h; cases h

end Sys2Proof.Machine
end

