-- ==== Sys2Proof/Laws/PerInstr.lean ====
section
/-! SUPPORT. Statements made of every command as syntax, one lemma per constructor. -/

namespace Sys2Proof.Laws.HeaderLength

/-- The header of a well-formed command announces the length of its payload (spec/30_encoding.md R87). -/
def Statement (i : Instr) : Prop := i.wf = true → payloadLength (decodeHeader (encodeWord i)) = (payloadOf i).length

theorem init (klen nn : Byte) (key : List Byte) : Statement (.init klen nn key) := by
  intro h
  rw [decodeHeader_encodeWord]
  simp only [Instr.wf, beq_iff_eq] at h
  exact h.symm

theorem update (data : List Byte) : Statement (.update data) := by
  intro h
  rw [decodeHeader_encodeWord]
  simp only [Instr.wf, Config.updMax, decide_eq_true_eq] at h
  simp only [headerOf, payloadLength, payloadOf, BitVec.toNat_ofNat]
  exact Nat.mod_eq_of_lt (by omega)

theorem final : Statement .final := fun _ => rfl

end Sys2Proof.Laws.HeaderLength
end

