-- ==== Sys2Proof/Laws/Update.lean ====
section
/-! SUPPORT. The pieces of UPDATE's loop: the flush of a full buffer, one copy, and what the loop never touches. -/

namespace Sys2Proof.Machine

theorem advanceFill_val (c : Fin 129) (k : Nat) (h : c.val + k ≤ 128) : (advanceFill c k).val = c.val + k := by
  simp only [advanceFill, Fin.ofNat]
  exact Nat.mod_eq_of_lt (by omega)

theorem flushFull_full {s : State} (h : s.c = 128) : flushFull s = { compress false s with c := 0 } := if_pos h

theorem flushFull_room {s : State} (h : s.c ≠ 128) : flushFull s = s := if_neg h

@[simp] theorem flushFull_buf (s : State) : (flushFull s).buf = s.buf := by unfold flushFull; split <;> rfl
@[simp] theorem flushFull_t (s : State) : (flushFull s).t = s.t := by unfold flushFull; split <;> rfl
@[simp] theorem flushFull_outlen (s : State) : (flushFull s).outlen = s.outlen := by unfold flushFull; split <;> rfl
@[simp] theorem flushFull_mode (s : State) : (flushFull s).mode = s.mode := by unfold flushFull; split <;> rfl
@[simp] theorem flushFull_input (s : State) : (flushFull s).input = s.input := by unfold flushFull; split <;> rfl
@[simp] theorem flushFull_out (s : State) : (flushFull s).out = s.out := by unfold flushFull; split <;> rfl
@[simp] theorem flushFull_resetIn (s : State) : (flushFull s).resetIn = s.resetIn := by unfold flushFull; split <;> rfl
@[simp] theorem flushFull_draws (s : State) : (flushFull s).draws = s.draws := by unfold flushFull; split <;> rfl

/-- After the flush there is room for a byte (R130). -/
theorem flushFull_fill_lt (s : State) : (flushFull s).c.val < 128 := by
  by_cases h : s.c = 128
  · rw [flushFull_full h]; exact Nat.zero_lt_succ 127
  · rw [flushFull_room h]
    have := s.c.isLt
    have : s.c.val ≠ 128 := fun hv => h (Fin.ext hv)
    omega

theorem flushFull_fill (s : State) : (flushFull s).c.val = s.c.val % 128 := by
  by_cases h : s.c = 128
  · rw [flushFull_full h, h]; rfl
  · rw [flushFull_room h]
    have := flushFull_fill_lt s
    rw [flushFull_room h] at this
    exact (Nat.mod_eq_of_lt this).symm

/-- How many bytes one pass copies: at least one, and they fit (R130, R194). -/
theorem copyCount_spec {remaining : Nat} {c : Fin 129} (hr : 1 ≤ remaining) (hc : c.val < 128) :
    1 ≤ copyCount remaining c ∧ copyCount remaining c ≤ remaining ∧ c.val + copyCount remaining c ≤ 128 := by
  simp only [copyCount, Config.blockBytes]; omega

/-- A property that the flush and every copy that fits keep is kept by the loop. -/
theorem absorbLoop_keeps (P : State → Prop) (hflush : ∀ s, P s → P (flushFull s))
    (hcopy : ∀ s bytes, P s → s.c.val + bytes.length ≤ 128 → P (absorbBytes bytes s)) :
    ∀ passes data s, P s → P (absorbLoop passes data s) := by
  intro passes
  induction passes with
  | zero => exact fun _ _ h => h
  | succ n ih =>
    intro data s h
    cases data with
    | nil => exact h
    | cons b data =>
      have hk := copyCount_spec (remaining := (b :: data).length) (by simp) (flushFull_fill_lt s)
      exact ih _ _ (hcopy _ _ (hflush s h) (by rw [List.length_take]; omega))

/-- What UPDATE's loop never writes (R36). -/
theorem absorbLoop_frame (passes : Nat) (data : List Byte) (s : State) :
    (absorbLoop passes data s).outlen = s.outlen ∧ (absorbLoop passes data s).mode = s.mode
      ∧ (absorbLoop passes data s).input = s.input ∧ (absorbLoop passes data s).out = s.out
      ∧ (absorbLoop passes data s).resetIn = s.resetIn ∧ (absorbLoop passes data s).draws = s.draws :=
  absorbLoop_keeps (fun u => u.outlen = s.outlen ∧ u.mode = s.mode ∧ u.input = s.input ∧ u.out = s.out
      ∧ u.resetIn = s.resetIn ∧ u.draws = s.draws)
    (fun u h => by simpa using h) (fun u bytes h _ => by simpa using h) passes data s (by simp)

/-- UPDATE's loop keeps the buffer's canonical form. -/
theorem absorbLoop_wf (passes : Nat) (data : List Byte) (s : State) (h : Memory.wf s.buf) :
    Memory.wf (absorbLoop passes data s).buf :=
  absorbLoop_keeps (fun u => Memory.wf u.buf) (fun u h => by simpa using h)
    (fun u bytes h hb => wf_memWrite _ _ _ h hb) passes data s h

end Sys2Proof.Machine
end

