-- ==== Sys2Proof/Tests/Slice0.lean ====
section
/-! SUPPORT. The model's own tests. Expected values are those spec/95_test_vectors.md and spec/30_encoding.md print; each
test names its row. Then one witness for the hypotheses of every statement that has some. -/

namespace Sys2Proof.Tests

open Sys2Proof.Machine Sys2Proof.Safety

/-! ### Small states -/

/-- What a step or a meaning answers, if it is a next state. -/
def nextOf : Host.Outcome State Fault Refusal → Option State
  | .next s => some s
  | .fault _ => none
  | .refused _ => none

/-- After `INIT 64` and `UPDATE "abc"` (vector V2, program P1). -/
def afterAbc : State :=
  { State.reset with
    h := initialHash 0 64, buf := [(0, 0x61), (1, 0x62), (2, 0x63)], c := 3, t := 3#64, outlen := 64, mode := .streaming }

/-- After `INIT 64` and `UPDATE 00 01 ... 7f` (program P3): a full deferred block. -/
def afterBlock : State :=
  { State.reset with
    h := initialHash 0 64
    buf := (List.range 127).map fun i => (i + 1, BitVec.ofNat 8 (i + 1))
    c := 128, t := 128#64, outlen := 64, mode := .streaming }

/-- Three bytes below the counter's bound (section B6). -/
def nearBound : State := { State.reset with c := 125, t := 0xfffffffffffffffd#64, outlen := 32, mode := .streaming }

/-- A closed context. -/
def closed : State := { State.reset with c := 3, t := 3#64, outlen := 32, mode := .finalized }

/-! ### WellFormed -/

theorem test_wf_refuses_short_key : (Instr.init 2 64 [0xaa]).wf = false := by decide
theorem test_wf_refuses_long_key : (Instr.init 0 64 [0xaa]).wf = false := by decide
theorem test_wf_refuses_update_past_65535 : (Instr.update (List.replicate 65536 0)).wf = false := by
  rw [Instr.wf, List.length_replicate]; decide
theorem test_wf_takes_illegal_lengths : (Instr.init 1 255 [0xaa]).wf = true := by decide

/-! ### Decoding: words written out bit by bit from R83 to R85 (fields op, rsv, klen, nn; bytes lowest first) -/

/-- Format I with klen = 1, nn = 16 (R96), then the key byte and the next command's first byte. -/
theorem test_decode_init :
    fetch [0b00010000#8, 0b00000001#8, 0b00000000#8, 0b00000001#8, 0xaa, 0x77] = .command (.init 1 16 [0xaa]) [0x77] := by
  decide

/-- Format U with len = 3 (R96). -/
theorem test_decode_update :
    fetch [0b00000011#8, 0b00000000#8, 0b00000000#8, 0b00000010#8, 0x61, 0x62, 0x63, 0x77]
      = .command (.update [0x61, 0x62, 0x63]) [0x77] := by decide

/-- Format F (R96). -/
theorem test_decode_final :
    fetch [0b00000000#8, 0b00000000#8, 0b00000000#8, 0b00000011#8] = .command .final [] := by decide

/-- `00 ff 00 01` decodes, with klen = 255 and nn = 0; `00 00 01 02` and `ff ff ff ff` do not (B4). -/
theorem test_decode_headers :
    decodeHeader 0x0100ff00 = .init 255 0 ∧ decodeHeader 0x0200ffff = .update 65535 ∧ decodeHeader 0x02010000 = .illegal
      ∧ decodeHeader 0x03010000 = .illegal ∧ decodeHeader 0xffffffff = .illegal := by decide

theorem test_decode_incomplete : fetch [0x05, 0x00, 0x00, 0x02, 0x61] = .incomplete ∧ fetch [0x05, 0x00] = .incomplete := by
  decide

theorem test_decode_table_words :
    decodeTableWord 32 0x01000040 = some (.init 0 64 []) ∧ decodeTableWord 32 0x01000110 = some (.init 1 16 [0x00])
      ∧ decodeTableWord 32 0x02000002 = some (.update [0x00, 0x00]) ∧ decodeTableWord 32 0x03000000 = some .final
      ∧ decodeTableWord 32 0x04000000 = none := by decide

/-- `HASH "abc"` is 15 bytes (R96, P1). -/
theorem test_assemble_hash :
    assembleLine (.hash [0x61, 0x62, 0x63])
      = [0x40, 0x00, 0x00, 0x01, 0x03, 0x00, 0x00, 0x02, 0x61, 0x62, 0x63, 0x00, 0x00, 0x00, 0x03] := by decide

/-! ### Word operations and COMPRESS's parts -/

/-- B1. -/
theorem test_rotr64 :
    rotr64 0x0123456789abcdef 24 = 0xabcdef0123456789 ∧ rotr64 0x0123456789abcdef 63 = 0x02468acf13579bde
      ∧ rotr64 0x00000000ffffffff 32 = 0xffffffff00000000 ∧ rotr64 0x000000000000ffff 16 = 0xffff000000000000 := by decide

/-- B2, row G11. -/
theorem test_mixG :
    mixG 0x0123456789abcdef 0xfedcba9876543210 0x0f1e2d3c4b5a6978 0x8796a5b4c3d2e1f0 0x1111111111111111 0x2222222222222222
      = (0xe95f405271d7b7c9, 0xa6c4a94d586303f4, 0xe54e59b99295056d, 0x036c3b9cb0b2e750) := by decide

/-- B3. -/
theorem test_loadM : (loadM afterAbc.buf)[0] = 0x0000000000636261 ∧ (loadM afterBlock.buf)[15] = 0x7f7e7d7c7b7a7978 := by
  decide +kernel

/-- B7, t = 3 and f = 1, and the largest count. -/
theorem test_mask :
    (maskV 3 true (vinit IV))[12] = 0x510e527fade682d2 ∧ (maskV 3 true (vinit IV))[14] = 0xe07c265404be4294
      ∧ (maskV 0xffffffffffffffff false (vinit IV))[12] = 0xaef1ad8052197d2e := by decide +kernel

/-! ### INIT -/

/-- B5: `INIT 16, key=aa`. -/
theorem test_init_keyed :
    (nextOf (exec (.init 1 16 [0xaa]) closed)).map (fun s => (s.h[0], s.c, s.t, s.outlen, s.mode == .streaming, s.buf == [(0, 0xaa)]))
      = some (0x6a09e667f2bdc818#64, 128, 128#64, 16, true, true) := by decide +kernel

/-- B10: `INIT 65` with `klen` = 65 reports both bits and leaves the open context. -/
theorem test_init_refused :
    nextOf (exec (.init 65 65 (List.replicate 65 0)) afterAbc)
      = some { afterAbc with out := [⟨.invalidParameter, 0x03, []⟩] } := by decide +kernel

/-! ### UPDATE -/

/-- Program P3, third line: the deferred block is compressed under t = 128 and the byte lands at offset 0. -/
theorem test_update_flushes_deferred_block :
    (nextOf (exec (.update [0x80]) afterBlock)).map (fun s => (s.h, s.c, s.t, Memory.read s.buf 0, Memory.read s.buf 1))
      = some (#v[0xffa0852a267eb85a, 0xee3e4a8743c6c30b, 0x28a559f71459300a, 0x61b0eeaf429e7346, 0x2f194672bced790f,
          0xbef760bb734a4a5d, 0x37410e514215c327, 0xe96b7e8825d0f5a7], 1, 129, 0x80, 0x01) := by decide +kernel

/-- B6: at the counter's bound three bytes are refused. -/
theorem test_update_refused_at_the_bound :
    nextOf (exec (.update [0x61, 0x62, 0x63]) nearBound)
      = some { nearBound with out := [⟨.counterOverflow, 0x00, []⟩] } := by decide +kernel

/-! ### FINAL -/

/-- V2: the digest of "abc". -/
theorem test_final_digest :
    (nextOf (exec .final afterAbc)).map (fun s => (s.out, s.mode, s.c, s.t))
      = some ([⟨.ok, 0x40,
          [0xba, 0x80, 0xa5, 0x3f, 0x98, 0x1c, 0x4d, 0x0d, 0x6a, 0x27, 0x97, 0xb6, 0x9f, 0x12, 0xf6, 0xe9,
           0x4c, 0x21, 0x2f, 0x14, 0x68, 0x5a, 0xc4, 0xb7, 0x4b, 0x12, 0xbb, 0x6f, 0xdb, 0xff, 0xa2, 0xd1,
           0x7d, 0x87, 0xc5, 0x39, 0x2a, 0xab, 0x79, 0x2d, 0xc2, 0x52, 0xd5, 0xde, 0x45, 0x33, 0xcc, 0x95,
           0x18, 0xd3, 0x8a, 0xa8, 0xdb, 0xf1, 0x92, 0x5a, 0xb9, 0x23, 0x86, 0xed, 0xd4, 0x00, 0x99, 0x23]⟩],
        .finalized, 3, 3) := by decide +kernel

/-- B10: a second FINAL. -/
theorem test_final_refused : nextOf (exec .final closed) = some { closed with out := [⟨.stateError, 0x02, []⟩] } := by
  decide +kernel

/-! ### The step -/

/-- B4, last row: the INIT runs, then the engine waits. -/
theorem test_step_waits :
    (nextOf (step { State.reset with input := [0x40, 0x00, 0x00, 0x01, 0x05, 0x00, 0x00, 0x02, 0x61] })).map
        (fun s => (s.input, s.mode, nextOf (step s))) = some ([0x05, 0x00, 0x00, 0x02, 0x61], .streaming, none) := by
  decide +kernel

/-- A table word runs as the first command after reset. -/
theorem test_step_runs_table_word :
    (nextOf (step (State.reset.withFetchWord 32 0x02000001))).map (fun s => (s.out, s.input))
      = some ([⟨.stateError, 0x00, []⟩], []) := by decide +kernel

/-! ### The hypotheses of the statements are met -/

/-- A state with a command, an illegal word and an incomplete header waiting in an open context. -/
def waiting : State := { afterAbc with input := [0x00, 0x00, 0x00, 0x02, 0x00, 0x00, 0x00, 0x04, 0x05] }

theorem test_meets_invariant : Inv waiting :=
  ⟨by decide, by decide, by unfold FillMatchesCounter; decide, by unfold ResponseSized; decide⟩

theorem test_meets_EveryStepKeepsTheInvariant : Inv waiting ∧ ∃ s', step waiting = .next s' :=
  ⟨test_meets_invariant, _, rfl⟩

/-- Reachable by a byte string, by the reset input, and by a step of each of the two. -/
theorem test_meets_InvariantHoldsInEveryReachableState :
    Reachable (hostSend [0x00, 0x00, 0x00, 0x03] State.reset) ∧ Reachable (takeReset (hostReset State.reset)) :=
  have start : Reachable State.reset := .powerUp (by unfold PowerUp; decide)
  ⟨.send _ start, .step (.reset start) rfl⟩

/-- In an open context, a stale byte at offset `c`; in a closed one, other registers altogether. -/
theorem test_meets_UnspecifiedStateNeverReachesTheHost :
    HostAlike afterAbc { afterAbc with buf := afterAbc.buf ++ [(3, 0x64)] } ∧ HostAlike closed { afterAbc with mode := .finalized } :=
  ⟨⟨rfl, rfl, rfl, rfl, fun _ => by decide⟩, ⟨rfl, rfl, rfl, rfl, fun h => by cases h⟩⟩

theorem test_meets_AnyPowerUpStateAnswersAlike : PowerUp State.reset ∧ PowerUp { afterAbc with mode := .idle } := by
  unfold PowerUp; decide

theorem test_meets_ResetEventDiscardsTheStream : (hostReset waiting).resetIn = true := rfl

/-- The shortest and the longest key field, no data, and FINAL. -/
theorem test_meets_DecodingInvertsEncoding :
    (Instr.init 0 0 []).wf = true ∧ (Instr.init 255 255 (List.replicate 255 0)).wf = true ∧ (Instr.update []).wf = true
      ∧ (Instr.update (List.replicate 65535 0)).wf = true ∧ Instr.final.wf = true := by
  simp only [Instr.wf, List.length_replicate]; decide

/-- Also for StepRunsTheDecodedCommand and NoCompleteCommandHangs. -/
theorem test_meets_EveryCommandHasOneSpelling :
    waiting.resetIn = false ∧ fetch waiting.input = .command (.update []) [0x00, 0x00, 0x00, 0x04, 0x05] := by decide

/-- Both sides of IllegalWordsAreThoseOfNoFormat occur, each of its three clauses at a boundary. -/
theorem test_meets_IllegalWordsAreThoseOfNoFormat :
    decodeHeader 0x04000000 = .illegal ∧ decodeHeader 0x00000000 = .illegal ∧ decodeHeader 0x01010040 = .illegal
      ∧ decodeHeader 0x03000001 = .illegal ∧ decodeHeader 0x03000000 = .final := by decide

/-- A command and an illegal word, each taken by a step. Also for OneResponsePerCommandAndRefusalsChangeNothing. -/
theorem test_meets_EveryCommandConsumesItsLength :
    waiting.resetIn = false ∧ (∃ s', step waiting = .next s')
      ∧ ∃ s', step { waiting with input := waiting.input.drop 4 } = .next s' := ⟨rfl, ⟨_, rfl⟩, _, rfl⟩

/-- Too few header bytes, and a payload one byte short. -/
theorem test_meets_IncompleteCommandHasNoStep :
    State.reset.resetIn = false ∧ State.reset.input.length < 4
      ∧ [0x61#8].length < announced 0x02 0x00 0x00 0x02 := by decide

/-- One word for each clause: a bad op, a bad third byte, FINAL with a low byte set. -/
theorem test_meets_IllegalWordIsAnsweredInEveryMode :
    waiting.resetIn = false ∧ 0x04#8 ∉ [0x01#8, 0x02#8, 0x03#8] ∧ 0x01#8 ≠ 0x00#8
      ∧ (0x03#8 = 0x03#8 ∧ (0x00#8 ≠ 0x00#8 ∨ 0x01#8 ≠ 0x00#8)) := by decide

theorem test_meets_ResponseStreamCutsOneWay :
    ∀ r ∈ [(⟨.ok, 0x01, [0x2e]⟩ : Response), ⟨.stateError, 0x02, []⟩], ResponseSized r := by
  unfold ResponseSized; decide

theorem test_meets_StreamRunsItsCommandsInOrder :
    (∀ i ∈ [Instr.init 1 16 [0xaa], .update [0x61], .final], i.wf = true) ∧ State.reset.resetIn = false := by decide

/-- Each of the three grounds at its boundary. -/
theorem test_meets_InitRefusesIllegalLengths :
    (0 : Byte).toNat = 0 ∧ 64 < (65 : Byte).toNat := by decide

/-- Both ends of the legal output lengths. -/
theorem test_meets_InitWithoutKeyOpensAnEmptyContext :
    (1 ≤ (1 : Byte).toNat ∧ (1 : Byte).toNat ≤ 64) ∧ (1 ≤ (64 : Byte).toNat ∧ (64 : Byte).toNat ≤ 64) := by decide

/-- Both ends of the legal key lengths. Also for KeyBytesStayInTheBuffer. -/
theorem test_meets_InitWithKeyPlacesTheKeyBlock :
    (1 ≤ (1 : Byte).toNat ∧ (1 : Byte).toNat ≤ 64 ∧ [0xaa#8].length = (1 : Byte).toNat)
      ∧ (1 ≤ (64 : Byte).toNat ∧ (64 : Byte).toNat ≤ 64 ∧ (List.replicate 64 0xaa#8).length = (64 : Byte).toNat) := by decide

theorem test_meets_ParameterWordFieldsAreDisjoint :
    (0 : Byte).toNat ≤ 64 ∧ (64 : Byte).toNat ≤ 64 ∧ 1 ≤ (1 : Byte).toNat ∧ (1 : Byte).toNat ≤ 64 := by decide

/-- Two different old contexts; the key both absent and present. -/
theorem test_meets_InitForgetsTheOldContext :
    Memory.wf afterAbc.buf ∧ Memory.wf closed.buf ∧ afterAbc.buf ≠ closed.buf ∧ afterAbc.input = closed.input
      ∧ afterAbc.out = closed.out ∧ afterAbc.resetIn = closed.resetIn ∧ afterAbc.draws = closed.draws
      ∧ ([] : List Byte).length = (0 : Byte).toNat ∧ [0xaa#8].length = (1 : Byte).toNat := by decide

/-- Both modes outside STREAMING, with the command waiting. Also for FinalIsRefusedOutsideStreaming. -/
theorem test_meets_UpdateIsRefusedOutsideStreaming :
    State.reset.mode ≠ .streaming ∧ closed.mode ≠ .streaming
      ∧ (hostSend (encode (.update [0x61])) closed).input = encode (.update [0x61]) ++ []
      ∧ [0x61#8].length ≤ 65535 ∧ closed.resetIn = false := by decide

/-- The bound's two sides: three bytes pass it, two do not. -/
theorem test_meets_CounterNeverWraps :
    nearBound.mode = .streaming ∧ 2 ^ 64 - 1 < nearBound.t.toNat + [0x61#8, 0x62#8, 0x63#8].length
      ∧ nearBound.t.toNat + [0x61#8, 0x62#8].length ≤ 2 ^ 64 - 1 := by decide

/-- Also for UpdateLeavesTheRestAlone (its `c + n <= 128` at 128 exactly) and UpdateCompressesEveryBlockButTheLast. -/
theorem test_meets_UpdateFoldsAbsorbOneOverItsBytes :
    afterAbc.mode = .streaming ∧ afterAbc.t.toNat + (zeros 125).length ≤ 2 ^ 64 - 1
      ∧ 1 ≤ (zeros 125).length ∧ afterAbc.c.val + (zeros 125).length ≤ 128
      ∧ (∀ k, k < [0x61#8].length → (afterAbc.c.val + k) % 128 ≠ 4) := by
  simp only [zeros_length]; decide

theorem test_meets_ChunkingNeverChangesTheContext :
    afterBlock.mode = .streaming ∧ afterBlock.t.toNat + [[0x61#8], [], [0x62#8, 0x63#8]].flatten.length ≤ 2 ^ 64 - 1 := by
  decide

/-- Without a key and with the longest. Also for CommandSequenceAnswersTheHashOfItsMessage. -/
theorem test_meets_StreamingContextIsAFunctionOfTheBytesSent :
    ([] : List Byte).length ≤ 64 ∧ (zeros 64).length ≤ 64 ∧ 1 ≤ (64 : Byte).toNat ∧ (64 : Byte).toNat ≤ 64
      ∧ (hashedStream [] [[0x61#8], [0x62#8]].flatten).length ≤ 2 ^ 64 - 1
      ∧ (hashedStream (zeros 64) [[0x61#8], []].flatten).length ≤ 2 ^ 64 - 1 := by decide +kernel

/-- Also for DigestIsTheLittleEndianPrefixOfTheHash; its two byte bounds at the last byte. -/
theorem test_meets_FinalCompressesThePaddedBlock :
    afterAbc.mode = .streaming ∧ afterBlock.mode = .streaming ∧ afterAbc.outlen.val = 64 ∧ 63 / 8 < 8 := by decide

theorem test_meets_OperationsOfOneHalfRoundCommute :
    [3, 1, 0, 2].Perm [0, 1, 2, 3] ∧ [7, 5, 4, 6].Perm [4, 5, 6, 7] := by decide

theorem test_meets_MixingPrimitiveFollowsItsEightLines :
    ([3, 4, 9, 14] : List (Fin 16)).Nodup ∧ (0 : Fin 16) ∉ ([3, 4, 9, 14] : List (Fin 16)) := by decide

theorem test_meets_RotationMovesEveryBit : ∀ n ∈ [32, 24, 16, 63], n ∈ [32, 24, 16, 63] := fun _ h => h

theorem test_meets_HashPseudoCommandAnswersTheHash :
    let message : List Byte := [0x61, 0x62, 0x63]
    let s := hostSend (assembleLine (.hash message)) State.reset
    message.length ≤ 2 ^ 64 - 1 ∧ s.resetIn = false ∧ s.input = assembleLine (.hash message) := by decide

end Sys2Proof.Tests
end

section
/-! SUPPORT. Runs of several commands, cut into their parts. -/

namespace Sys2Proof.Safety

open Sys2Proof.Machine

theorem execAll_cons_of_exec {i : Instr} {s u : State} (is : List Instr) (h : exec i s = .next u) :
    execAll (i :: is) s = execAll is u := by
  rw [execAll, h]

theorem execAll_append_of_execAll {is : List Instr} {s u : State} (js : List Instr) (h : execAll is s = .next u) :
    execAll (is ++ js) s = execAll js u := by
  induction is generalizing s with
  | nil => cases h; rfl
  | cons i is ih =>
    rw [execAll] at h
    rw [List.cons_append, execAll]
    cases hi : exec i s with
    | next v => rw [hi] at h; exact ih h
    | fault r => rw [hi] at h; cases h
    | refused r => rw [hi] at h; cases h

end Sys2Proof.Safety
end

section
/-! SUPPORT. The buffer's first bytes after a write that extends them, and the blocks and the chain of a stream that
grows at its end. -/

namespace Sys2Proof.Safety

open Sys2Proof.Machine

/-- A write at the end of what has been read so far extends it (R64). -/
theorem memRead_memWrite_extends (m : Memory) (off : Nat) (bytes : List Byte) :
    memRead (memWrite m off bytes) 0 (off + bytes.length) = memRead m 0 off ++ bytes := by
  apply List.ext_getElem
  · simp
  · intro i hi _
    simp only [memRead_length] at hi
    rw [memRead_getElem, read_memWrite, List.getElem_append]
    by_cases h : i < off
    · rw [dif_neg (by omega), dif_pos (by simpa using h), memRead_getElem]
    · rw [dif_pos (by omega), dif_neg (by simpa using h)]
      simp

/-- The message words of a buffer whose offsets from `c` on have been zeroed (R151, R171). -/
theorem loadM_memWrite_zeros (m : Memory) (c : Nat) (h : c ≤ 128) :
    loadM (memWrite m c (zeros (128 - c))) = wordsOfBlock (memRead m 0 c ++ zeros (128 - c)) := by
  have hread := memRead_memWrite_extends m c (zeros (128 - c))
  rw [zeros_length, Nat.add_sub_cancel' h] at hread
  rw [loadM, hread]

/-- The last block of a stream is what is left of it, filled up with zeros. -/
theorem blockAt_last (stream : List Byte) (k : Nat) (h : (stream.drop (128 * k)).length ≤ 128) :
    blockAt stream k = wordsOfBlock (stream.drop (128 * k) ++ zeros (128 - (stream.drop (128 * k)).length)) := by
  rw [blockAt, List.take_of_length_le h, List.take_append, List.take_of_length_le h, zeros, List.take_replicate,
    Nat.min_eq_left (Nat.sub_le _ _), zeros]

/-- A block that is complete does not depend on what follows it. -/
theorem blockAt_append (stream more : List Byte) (i : Nat) (h : 128 * (i + 1) ≤ stream.length) :
    blockAt (stream ++ more) i = blockAt stream i := by
  have hfull : 128 ≤ (stream.drop (128 * i)).length := by rw [List.length_drop]; omega
  rw [blockAt, blockAt, List.drop_append_of_le_length (by omega), List.take_append_of_le_length hfull]

theorem chain_zero (h : Vector Word 8) (base : Word) (stream : List Byte) : chain h base stream 0 = h := rfl

theorem chain_succ (h : Vector Word 8) (base : Word) (stream : List Byte) (k : Nat) :
    chain h base stream (k + 1) =
      compressWords (chain h base stream k) (blockAt stream k) (base + BitVec.ofNat 64 (128 * (k + 1))) false := by
  rw [chain, List.range_succ, List.foldl_append, List.foldl_cons, List.foldl_nil, chain]

/-- The chain over complete blocks does not depend on what follows them. -/
theorem chain_append (h : Vector Word 8) (base : Word) (stream more : List Byte) (k : Nat)
    (hk : 128 * k ≤ stream.length) : chain h base (stream ++ more) k = chain h base stream k := by
  induction k with
  | zero => rw [chain_zero, chain_zero]
  | succ k ih => rw [chain_succ, chain_succ, ih (by omega), blockAt_append stream more k hk]

theorem hashedStream_eq_append (key message : List Byte) :
    hashedStream key message = hashedStream key [] ++ message := by
  simp only [hashedStream, List.append_nil]

end Sys2Proof.Safety
end

section
/-! SUPPORT. What an open context holds of the byte stream it has been sent (R35, R134), and that the flush, a copy,
UPDATE's loop and INIT establish it. -/

namespace Sys2Proof.Safety

open Sys2Proof.Machine

/-- The context has taken in `stream` from the chaining words `h0` and the byte count `base`: the first `k` blocks are
compressed, the rest is in the buffer. -/
structure Holds (h0 : Vector Word 8) (base : Word) (stream : List Byte) (k : Nat) (s : State) : Prop where
  hash : s.h = chain h0 base stream k
  counter : s.t = base + BitVec.ofNat 64 stream.length
  fill : 128 * k + s.c.val = stream.length
  pending : memRead s.buf 0 s.c.val = stream.drop (128 * k)

/-- How many blocks of a stream of `n` bytes are compressed before FINAL: all but the last, which waits (R132, R134). -/
def blocksBeforeLast (n : Nat) : Nat := (n - 1) / 128

/-- All blocks but the last are compressed: what holds between commands. -/
abbrev Absorbed (h0 : Vector Word 8) (base : Word) (stream : List Byte) (s : State) : Prop :=
  Holds h0 base stream (blocksBeforeLast stream.length) s

section
variable {h0 : Vector Word 8} {base : Word} {stream : List Byte} {k : Nat} {s : State}

/-- `Holds` speaks of the context alone. -/
theorem Holds.respond (h : Holds h0 base stream k s) (status : Status) (info : Byte) (data : List Byte) :
    Holds h0 base stream k (respond status info data s) :=
  ⟨h.hash, h.counter, h.fill, h.pending⟩

/-- The counter is exact while the sum fits 64 bits (R24, R194). -/
theorem Holds.counter_toNat (h : Holds h0 base stream k s) (hb : base.toNat + stream.length ≤ 2 ^ 64 - 1) :
    s.t.toNat = base.toNat + stream.length := by
  rw [h.counter, BitVec.toNat_add, BitVec.toNat_ofNat]
  omega

/-- The bytes in the buffer, padded with zeros, are the stream's block `k` (R151). -/
theorem Holds.loadM_padded (h : Holds h0 base stream k s) :
    loadM (memWrite s.buf s.c.val (zeros (128 - s.c.val))) = blockAt stream k := by
  have hlen : (stream.drop (128 * k)).length = s.c.val := by rw [← h.pending, memRead_length]
  have hc : s.c.val ≤ 128 := Nat.le_of_lt_succ s.c.isLt
  rw [loadM_memWrite_zeros _ _ hc, blockAt_last _ _ (hlen ▸ hc), hlen, h.pending]

/-- Compressing a full buffer takes the stream's next block (R130). -/
theorem Holds.flush_full (h : Holds h0 base stream k s) (hc : s.c = 128) :
    Holds h0 base stream (k + 1) (flushFull s) := by
  have hv : s.c.val = 128 := by rw [hc]; rfl
  have hlen : 128 * (k + 1) = stream.length := by have := h.fill; omega
  have hload : loadM s.buf = blockAt stream k := by
    have := h.loadM_padded
    rwa [hv, Nat.sub_self, zeros, List.replicate_zero, memWrite_nil] at this
  rw [flushFull_full hc]
  constructor
  case hash => rw [chain_succ, hlen, ← h.counter, ← h.hash, ← hload, compress_h]
  case counter => exact h.counter
  case fill => exact hlen
  case pending => rw [hlen, List.drop_length]; rfl

/-- A copy that fits appends to the stream and compresses nothing (R130). -/
theorem Holds.absorbBytes (h : Holds h0 base stream k s) (bytes : List Byte) (hfit : s.c.val + bytes.length ≤ 128) :
    Holds h0 base (stream ++ bytes) k (absorbBytes bytes s) := by
  have hk : 128 * k ≤ stream.length := h.fill ▸ Nat.le_add_right _ _
  have hc := advanceFill_val s.c bytes.length hfit
  constructor
  case hash => rw [absorbBytes_h, chain_append _ _ _ _ _ hk, h.hash]
  case counter =>
    rw [absorbBytes_t, advanceCounter, h.counter, List.length_append, BitVec.ofNat_add, BitVec.add_assoc]
  case fill => rw [absorbBytes_c, hc, List.length_append, ← h.fill, Nat.add_assoc]
  case pending =>
    rw [absorbBytes_c, hc, absorbBytes_buf, memRead_memWrite_extends, h.pending, List.drop_append_of_le_length hk]

/-- With some byte in the buffer exactly the last block waits. -/
theorem Holds.absorbed (h : Holds h0 base stream k s) (hc : 1 ≤ s.c.val) : Absorbed h0 base stream s := by
  have hk : blocksBeforeLast stream.length = k := by
    have := h.fill
    have := s.c.isLt
    unfold blocksBeforeLast
    omega
  rwa [Absorbed, hk]

/-- After the flush some number of complete blocks is compressed. -/
theorem Absorbed.flushFull (h : Absorbed h0 base stream s) : ∃ k, Holds h0 base stream k (flushFull s) := by
  by_cases hc : s.c = 128
  · exact ⟨_, h.flush_full hc⟩
  · exact ⟨_, by rwa [flushFull_room hc]⟩

/-- One pass of UPDATE's loop: the flush, then a copy of at least one byte (R130). -/
theorem Absorbed.pass (h : Absorbed h0 base stream s) (bytes : List Byte) (hne : 1 ≤ bytes.length)
    (hfit : (Machine.flushFull s).c.val + bytes.length ≤ 128) :
    Absorbed h0 base (stream ++ bytes) (Machine.absorbBytes bytes (Machine.flushFull s)) := by
  obtain ⟨k, hk⟩ := h.flushFull
  apply (hk.absorbBytes bytes hfit).absorbed
  rw [absorbBytes_c, advanceFill_val _ _ hfit]
  exact Nat.le_add_left_of_le hne

end

/-- UPDATE's loop takes in all its bytes (R130, R134). -/
theorem Absorbed.absorbLoop {h0 : Vector Word 8} {base : Word} {passes : Nat} {data stream : List Byte} {s : State}
    (h : Absorbed h0 base stream s) (hp : data.length ≤ passes) :
    Absorbed h0 base (stream ++ data) (absorbLoop passes data s) := by
  induction passes generalizing data stream s with
  | zero =>
    rw [List.length_eq_zero_iff.1 (Nat.le_zero.1 hp), List.append_nil]
    exact h
  | succ passes ih =>
    cases data with
    | nil => rwa [List.append_nil]
    | cons b data =>
      obtain ⟨hpos, hle, hfit⟩ := copyCount_spec (remaining := (b :: data).length) (by simp) (flushFull_fill_lt s)
      rw [Machine.absorbLoop]
      generalize copyCount (b :: data).length (Machine.flushFull s).c = n at hpos hle hfit ⊢
      have hlen : ((b :: data).take n).length = n := List.length_take_of_le hle
      have hpass := h.pass ((b :: data).take n) (by omega) (by omega)
      have hrest := ih hpass (data := (b :: data).drop n) (by rw [List.length_drop]; omega)
      rwa [List.append_assoc, List.take_append_drop] at hrest

/-- INIT opens a context that has taken in the key's block, or nothing without a key (R110, R112, R115). -/
theorem openContext_absorbed (key : List Byte) (nn : Byte) (s : State) (hkey : key.length ≤ 64) :
    Absorbed (initialHash (BitVec.ofNat 8 key.length) nn) 0#64 (hashedStream key [])
      (openContext (BitVec.ofNat 8 key.length) nn key s) := by
  have hklen : (BitVec.ofNat 8 key.length).toNat = key.length := by
    rw [BitVec.toNat_ofNat]; exact Nat.mod_eq_of_lt (by omega)
  by_cases hnil : key = []
  · subst hnil
    exact ⟨rfl, rfl, rfl, rfl⟩
  · have hpos : 1 ≤ key.length := List.length_pos_iff.2 hnil
    have hstream : hashedStream key [] = key ++ zeros (128 - key.length) := by
      rw [hashedStream, if_neg hnil, List.append_nil]
    have hlen : (key ++ zeros (128 - key.length)).length = 128 := by
      rw [List.length_append, zeros_length]; omega
    have hbuf : memRead (keyBlock (BitVec.ofNat 8 key.length) key s.buf) 0 128 = key ++ zeros (128 - key.length) := by
      have hinner := memRead_memWrite_extends s.buf 0 key
      have houter := memRead_memWrite_extends (memWrite s.buf 0 key) key.length (zeros (128 - key.length))
      rw [Nat.zero_add] at hinner
      rw [hinner, ← List.length_append, hlen] at houter
      rw [keyBlock, hklen, List.take_length]
      exact houter
    rw [hstream, openContext, if_pos (by rw [keyPresent, hklen]; exact decide_eq_true hpos), Absorbed, hlen]
    exact ⟨rfl, by rw [hlen]; rfl, hlen.symm, hbuf⟩

/-- The mode and the output length of the context INIT opens (R110). -/
theorem openContext_frame (klen nn : Byte) (key : List Byte) (s : State) :
    (openContext klen nn key s).mode = .streaming ∧ (openContext klen nn key s).outlen = outlenOf nn
      ∧ (openContext klen nn key s).out = s.out := by
  unfold openContext
  split <;> exact ⟨rfl, rfl, rfl⟩

theorem outlenOf_val (nn : Byte) (h : nn.toNat ≤ 64) : (outlenOf nn).val = nn.toNat :=
  Nat.mod_eq_of_lt (Nat.lt_succ_of_le h)

end Sys2Proof.Safety
end

section
/-! The hash of a whole message: INIT, any UPDATE commands, FINAL. -/

namespace Sys2Proof.Safety

open Sys2Proof.Machine

/-- UPDATE commands take in their data one after another, each answered by a plain OK (R130, R134, R135). -/
theorem execAll_updates_absorbed {h0 : Vector Word 8} {base : Word} {stream : List Byte} {s : State}
    (chunks : List (List Byte)) (hmode : s.mode = .streaming) (habs : Absorbed h0 base stream s)
    (hbound : base.toNat + (stream ++ chunks.flatten).length ≤ 2 ^ 64 - 1) :
    ∃ u, execAll (chunks.map .update) s = .next u ∧ u.mode = .streaming ∧ u.outlen = s.outlen
      ∧ u.out = s.out ++ List.replicate chunks.length ⟨.ok, 0x00, []⟩
      ∧ Absorbed h0 base (stream ++ chunks.flatten) u := by
  induction chunks generalizing stream s with
  | nil => exact ⟨s, rfl, hmode, rfl, by simp, by simpa using habs⟩
  | cons data chunks ih =>
    rw [List.flatten_cons, ← List.append_assoc] at hbound ⊢
    have ht : s.t.toNat + data.length ≤ 2 ^ 64 - 1 := by
      simp only [List.length_append] at hbound
      rw [habs.counter_toNat (by omega)]
      omega
    have hexec : exec (.update data) s = .next (respond .ok 0x00 [] (absorbLoop data.length data s)) :=
      execUpdate_accepted hmode ht
    obtain ⟨houtlen, hmode', -, hout, -, -⟩ := absorbLoop_frame data.length data s
    obtain ⟨u, hrun, hu, huoutlen, huout, huabs⟩ :=
      ih (s := respond .ok 0x00 [] (absorbLoop data.length data s)) (hmode'.trans hmode)
        ((habs.absorbLoop le_rfl).respond _ _ _) hbound
    refine ⟨u, ?_, hu, huoutlen.trans houtlen, ?_, huabs⟩
    · rw [List.map_cons, execAll_cons_of_exec _ hexec, hrun]
    · rw [huout, respond_out, hout, List.append_assoc, List.singleton_append, ← List.replicate_succ, List.length_cons]

/-- INIT and any UPDATE commands leave an open context that has taken in the key's block and the whole message (R35). -/
theorem execAll_init_updates_absorbed {key : List Byte} {nn : Byte} {chunks : List (List Byte)} (s : State)
    (hkey : key.length ≤ 64) (hnn : 1 ≤ nn.toNat) (hnn' : nn.toNat ≤ 64)
    (hbound : (hashedStream key chunks.flatten).length ≤ 2 ^ 64 - 1) :
    ∃ u, execAll (.init (BitVec.ofNat 8 key.length) nn key :: chunks.map .update) s = .next u
      ∧ u.mode = .streaming ∧ u.outlen.val = nn.toNat
      ∧ u.out = s.out ++ List.replicate (chunks.length + 1) ⟨.ok, 0x00, []⟩
      ∧ Absorbed (initialHash (BitVec.ofNat 8 key.length) nn) 0#64 (hashedStream key chunks.flatten) u := by
  have hlegal : legalInit (BitVec.ofNat 8 key.length) nn :=
    ⟨hnn, hnn', (BitVec.toNat_ofNat _ _).trans_le ((Nat.mod_le _ _).trans hkey)⟩
  have hexec : exec (.init (BitVec.ofNat 8 key.length) nn key) s = .next (respond .ok 0x00 [] _) :=
    execInit_accepted key s hlegal
  obtain ⟨hmode, houtlen, hout⟩ := openContext_frame (BitVec.ofNat 8 key.length) nn key s
  rw [hashedStream_eq_append] at hbound ⊢
  obtain ⟨u, hrun, hu, huoutlen, huout, huabs⟩ :=
    execAll_updates_absorbed (s := respond .ok 0x00 [] (openContext (BitVec.ofNat 8 key.length) nn key s)) chunks
      hmode ((openContext_absorbed key nn s hkey).respond _ _ _) (by simpa using hbound)
  refine ⟨u, ?_, hu, ?_, ?_, huabs⟩
  · rw [execAll_cons_of_exec _ hexec, hrun]
  · rw [huoutlen, respond_outlen, houtlen, outlenOf_val nn hnn']
  · rw [huout, respond_out, hout, List.append_assoc, List.singleton_append, ← List.replicate_succ]

/-- FINAL compresses the waiting block, padded, as the last one and answers the digest (R150, R151, R152). -/
theorem execFinal_of_absorbed {h0 : Vector Word 8} {stream : List Byte} {s : State} (hmode : s.mode = .streaming)
    (habs : Absorbed h0 0#64 stream s) :
    ∃ u, exec .final s = .next u ∧ u.mode = .finalized
      ∧ u.out = s.out ++ [⟨.ok, BitVec.ofNat 8 s.outlen.val,
          digest (compressWords (chain h0 0#64 stream (blocksBeforeLast stream.length))
            (blockAt stream (blocksBeforeLast stream.length)) (BitVec.ofNat 64 stream.length) true) s.outlen.val⟩] := by
  refine ⟨_, execFinal_accepted hmode, closeContext_mode _, ?_⟩
  have hcount : s.t = BitVec.ofNat 64 stream.length := habs.counter.trans (BitVec.zero_add _)
  rw [closeContext_out, compress_out, compress_outlen, compress_h, padBlock_out, padBlock_outlen, padBlock_h,
    padBlock_buf, padBlock_t, habs.loadM_padded, habs.hash, hcount]

theorem hashOf_eq (key : List Byte) (nn : Byte) (message : List Byte) :
    hashOf key nn message =
      digest (compressWords
        (chain (initialHash (BitVec.ofNat 8 key.length) nn) 0#64 (hashedStream key message)
          (blocksBeforeLast (hashedStream key message).length))
        (blockAt (hashedStream key message) (blocksBeforeLast (hashedStream key message).length))
        (BitVec.ofNat 64 (hashedStream key message).length) true) nn.toNat := by
  simp only [hashOf, blocksBeforeLast]

/-- Settles O47: INIT and the UPDATE commands leave a context that holds the whole stream but for its last block, which
FINAL compresses. -/
theorem commandSequenceAnswersTheHashOfItsMessage : Obligations.CommandSequenceAnswersTheHashOfItsMessage := by
  unfold Obligations.CommandSequenceAnswersTheHashOfItsMessage
  intro key nn chunks s hkey hnn hnn' hbound
  obtain ⟨u, hrun, hmode, houtlen, hout, habs⟩ := execAll_init_updates_absorbed s hkey hnn hnn' hbound
  obtain ⟨v, hfinal, hvmode, hvout⟩ := execFinal_of_absorbed hmode habs
  refine ⟨v, ?_, hvmode, ?_⟩
  · rw [execAll_append_of_execAll _ hrun, execAll_cons_of_exec _ hfinal, execAll]
  · rw [hvout, hout, houtlen, hashOf_eq, BitVec.ofNat_toNat, BitVec.setWidth_eq]

end Sys2Proof.Safety
end

section
/-! SUPPORT. A command that has been read is well-formed (R87, R97). -/

namespace Sys2Proof

/-- A header and a payload of the announced length make a well-formed command (R84, R97). -/
theorem wf_of_assembleCommand {hd : Header} {payload : List Byte} {i : Instr}
    (h : assembleCommand hd payload = some i) (hlen : payload.length = payloadLength hd) : i.wf = true := by
  cases hd with
  | init klen nn => cases h; exact beq_iff_eq.2 hlen
  | update len =>
    cases h
    have hlt := len.isLt
    simp only [payloadLength] at hlen
    simp only [Instr.wf, Config.updMax, decide_eq_true_eq]
    omega
  | final => cases h; rfl
  | illegal => cases h

theorem wf_of_fetch {bytes rest : List Byte} {i : Instr} (h : fetch bytes = .command i rest) : i.wf = true := by
  match bytes with
  | [] | [_] | [_, _] | [_, _, _] => cases h
  | s0 :: s1 :: s2 :: s3 :: more =>
    rw [fetch_cons] at h
    split at h
    · rename_i hle
      split at h
      · rename_i hasm
        cases h
        exact wf_of_assembleCommand hasm (List.length_take_of_le hle)
      · cases h
    · cases h

end Sys2Proof
end

section
/-! SUPPORT. What a step answers, case by case (R60, R87, R88, R90, R260). -/

namespace Sys2Proof.Machine

theorem step_of_resetIn {s : State} (h : s.resetIn = true) : step s = .next (takeReset s) := by
  rw [step, if_pos h]

theorem step_of_fetch_command {s : State} {i : Instr} {rest : List Byte} (hr : s.resetIn = false)
    (hf : fetch s.input = .command i rest) : step s = exec i { s with input := rest } := by
  rw [step, if_neg (by rw [hr]; decide), hf]

theorem step_of_fetch_illegal {s : State} {cw : BitVec 32} {rest : List Byte} (hr : s.resetIn = false)
    (hf : fetch s.input = .illegal cw rest) :
    step s = .next (respond .illegalCommand 0x00 [] { s with input := rest }) := by
  rw [step, if_neg (by rw [hr]; decide), hf]
  rfl

theorem step_of_fetch_incomplete {s : State} (hr : s.resetIn = false) (hf : fetch s.input = .incomplete) :
    step s = .fault .incompleteCommand := by
  rw [step, if_neg (by rw [hr]; decide), hf]

end Sys2Proof.Machine
end

section
/-! SUPPORT. A context seen as what it has taken in: every state has absorbed the bytes in its buffer, and contexts that
have absorbed the same stream agree in everything the spec specifies. -/

namespace Sys2Proof.Safety

open Sys2Proof.Machine

/-- The fill count between commands after `n` bytes: a full buffer waits (R35 (c)). -/
def fillOf (n : Nat) : Nat := if n = 0 then 0 else (n - 1) % 128 + 1

theorem fillMatchesCounter_iff (s : State) : FillMatchesCounter s ↔ s.c.val = fillOf s.t.toNat := Iff.rfl

/-- Only the bytes in the buffer matter for the fill count after `n` more. -/
theorem fillOf_fillOf_add (m n : Nat) : fillOf (fillOf m + n) = fillOf (m + n) := by
  by_cases hm : m = 0
  · rw [hm, show fillOf 0 = 0 from rfl]
  · simp only [fillOf, if_neg hm]
    rw [if_neg (by omega), if_neg (by omega)]
    omega

/-- Reading the first `n` offsets gives the same bytes exactly when each of them reads alike. -/
theorem memRead_eq_iff (m m' : Memory) (n : Nat) :
    memRead m 0 n = memRead m' 0 n ↔ ∀ a, a < n → Memory.read m a = Memory.read m' a := by
  simp only [memRead, List.map_inj_left, List.mem_range, Nat.zero_add]

/-- Counted from its own chaining words, a state has absorbed the bytes below `c` and compressed no block of them. -/
theorem absorbed_pending (s : State) :
    Absorbed s.h (s.t - BitVec.ofNat 64 s.c.val) (memRead s.buf 0 s.c.val) s := by
  have hblocks : blocksBeforeLast (memRead s.buf 0 s.c.val).length = 0 := by
    have := s.c.isLt
    rw [memRead_length, blocksBeforeLast]
    omega
  rw [Absorbed, hblocks]
  constructor
  case hash => rw [chain_zero]
  case counter => rw [memRead_length, BitVec.sub_add_cancel]
  case fill => rw [memRead_length, Nat.mul_zero, Nat.zero_add]
  case pending => rw [Nat.mul_zero, List.drop_zero]

/-- An accepted UPDATE seen from the state before it: the pending bytes, then the data, absorbed (R130, R134). -/
theorem absorbLoop_absorbed (data : List Byte) (s : State) :
    Absorbed s.h (s.t - BitVec.ofNat 64 s.c.val) (memRead s.buf 0 s.c.val ++ data) (absorbLoop data.length data s) :=
  (absorbed_pending s).absorbLoop le_rfl

section
variable {h0 : Vector Word 8} {base : Word} {stream : List Byte} {k : Nat} {s s1 s2 : State}

/-- Between commands the fill count is a function of the stream's length. -/
theorem Absorbed.fill_eq (h : Absorbed h0 base stream s) : s.c.val = fillOf stream.length := by
  have hfill := h.fill
  unfold blocksBeforeLast at hfill
  unfold fillOf
  split <;> omega

/-- A state that has absorbed a stream from the count 0 meets R35 (c). -/
theorem Absorbed.fillMatchesCounter (h : Absorbed h0 0#64 stream s) (hlen : stream.length ≤ 2 ^ 64 - 1) :
    FillMatchesCounter s := by
  have ht := h.counter_toNat (by simpa using hlen)
  rw [BitVec.toNat_zero, Nat.zero_add] at ht
  rw [fillMatchesCounter_iff, ht, h.fill_eq]

/-- States that have taken in the same stream agree in `h`, `c`, `t` and the buffer below `c`. -/
theorem Holds.context_eq (h1 : Holds h0 base stream k s1) (h2 : Holds h0 base stream k s2) :
    s1.h = s2.h ∧ s1.c = s2.c ∧ s1.t = s2.t ∧ ∀ a, a < s1.c.val → Memory.read s1.buf a = Memory.read s2.buf a := by
  have hc : s1.c.val = s2.c.val := Nat.add_left_cancel (h1.fill.trans h2.fill.symm)
  have hbuf : memRead s1.buf 0 s1.c.val = memRead s2.buf 0 s1.c.val := by rw [h1.pending, hc, h2.pending]
  exact ⟨h1.hash.trans h2.hash.symm, Fin.ext hc, h1.counter.trans h2.counter.symm, (memRead_eq_iff _ _ _).1 hbuf⟩

end

end Sys2Proof.Safety
end

section
/-! The invariants of R35, R50 and R91: what each command leaves of them, every step, every reachable state. -/

namespace Sys2Proof.Safety

open Sys2Proof.Machine

theorem bytesLE_length (x : Word) : (bytesLE x).length = 8 := by
  rw [bytesLE, List.length_map, List.length_range]

/-- The digest has the length the output length asks for (R152). -/
theorem digest_length (h : Vector Word 8) (n : Fin 65) : (digest h n.val).length = n.val := by
  have hbytes : (h.toList.flatMap bytesLE).length = 64 := by
    simp only [List.length_flatMap, bytesLE_length, List.map_const', List.sum_replicate, Vector.length_toList,
      smul_eq_mul]
  rw [digest, List.length_take, hbytes]
  omega

/-- An error response carries no data (R91, R230). -/
theorem responseSized_error {status : Status} (info : Byte) (h : status ≠ .ok) : ResponseSized ⟨status, info, []⟩ := by
  rw [ResponseSized, if_neg h, List.length_nil]

/-- The plain OK of INIT and UPDATE (R91). -/
theorem responseSized_ok : ResponseSized ⟨.ok, 0x00, []⟩ := rfl

/-- FINAL's response is sized: `info` holds every output length exactly (R91, R152). -/
theorem responseSized_digest (h : Vector Word 8) (n : Fin 65) :
    ResponseSized ⟨.ok, BitVec.ofNat 8 n.val, digest h n.val⟩ := by
  rw [ResponseSized, if_pos rfl, digest_length, BitVec.toNat_ofNat, Nat.mod_eq_of_lt (by omega)]

theorem freeBuffer_wf (draw : Nat) : Memory.wf (freeBuffer draw) :=
  wf_memWrite _ _ _ wf_nil (by rw [List.length_map, List.length_range, Nat.zero_add])

theorem padBlock_wf {s : State} (h : Memory.wf s.buf) : Memory.wf (padBlock s).buf :=
  wf_memWrite _ _ _ h (by have := s.c.isLt; rw [zeros_length, Config.blockBytes]; omega)

theorem keyBlock_wf {klen : Byte} (key : List Byte) {buf : Memory} (hklen : klen.toNat ≤ 64) (h : Memory.wf buf) :
    Memory.wf (keyBlock klen key buf) := by
  have hkey := List.length_take_le klen.toNat key
  refine wf_memWrite _ _ _ (wf_memWrite _ _ _ h ?_) ?_
  · rw [Config.blockBytes]; omega
  · rw [zeros_length, Config.blockBytes]; omega

/-- Emitting a response of the announced length keeps the invariants. -/
theorem Inv.respond {s : State} (h : Inv s) {status : Status} {info : Byte} {data : List Byte}
    (hsized : ResponseSized ⟨status, info, data⟩) : Inv (respond status info data s) where
  bufferCanonical := h.bufferCanonical
  outlenLegal := h.outlenLegal
  fillMatches := h.fillMatches
  responsesSized r hr := by
    rw [respond_out, List.mem_append, List.mem_singleton] at hr
    rcases hr with hr | rfl
    · exact h.responsesSized r hr
    · exact hsized

/-- The invariants speak neither of the waiting bytes nor of the reset input. -/
theorem Inv.withInput {s : State} (h : Inv s) (input : List Byte) (resetIn : Bool) :
    Inv { s with input := input, resetIn := resetIn } :=
  ⟨h.bufferCanonical, h.outlenLegal, h.fillMatches, h.responsesSized⟩

/-- The context INIT opens meets the invariants: `c` and `t` are both 128 or both 0 (R110, R115). -/
theorem Inv.openContext {s : State} (h : Inv s) {klen nn : Byte} (key : List Byte) (hlegal : legalInit klen nn) :
    Inv (openContext klen nn key s) := by
  obtain ⟨hnn, hnn', hklen⟩ := hlegal
  obtain ⟨-, houtlen, hout⟩ := openContext_frame klen nn key s
  constructor
  case bufferCanonical =>
    unfold Machine.openContext
    split
    · exact keyBlock_wf key hklen h.bufferCanonical
    · exact h.bufferCanonical
  case outlenLegal => intro _; rwa [houtlen, outlenOf_val nn hnn']
  case fillMatches => intro _; unfold Machine.openContext; split <;> rfl
  case responsesSized => rw [hout]; exact h.responsesSized

/-- UPDATE's loop advances `c` and `t` together (R35 (c), R130). -/
theorem FillMatchesCounter.absorbLoop {s : State} (h : FillMatchesCounter s) (data : List Byte)
    (ht : s.t.toNat + data.length ≤ 2 ^ 64 - 1) : FillMatchesCounter (absorbLoop data.length data s) := by
  have habs := absorbLoop_absorbed data s
  have hfill := habs.fill_eq
  have hcounter : (Machine.absorbLoop data.length data s).t = s.t + BitVec.ofNat 64 data.length := by
    rw [habs.counter, List.length_append, memRead_length, BitVec.ofNat_add, ← BitVec.add_assoc, BitVec.sub_add_cancel]
  have hsum : (Machine.absorbLoop data.length data s).t.toNat = s.t.toNat + data.length := by
    rw [hcounter, BitVec.toNat_add, BitVec.toNat_ofNat]
    omega
  rw [fillMatchesCounter_iff] at h ⊢
  rw [hfill, List.length_append, memRead_length, hsum, h, fillOf_fillOf_add]

theorem Inv.absorbLoop {s : State} (h : Inv s) (data : List Byte) (ht : s.t.toNat + data.length ≤ 2 ^ 64 - 1) :
    Inv (absorbLoop data.length data s) := by
  obtain ⟨houtlen, hmode, -, hout, -, -⟩ := absorbLoop_frame data.length data s
  constructor
  case bufferCanonical => exact absorbLoop_wf _ _ _ h.bufferCanonical
  case outlenLegal => rw [hmode, houtlen]; exact h.outlenLegal
  case fillMatches => rw [hmode]; exact fun hm => (h.fillMatches hm).absorbLoop data ht
  case responsesSized => rw [hout]; exact h.responsesSized

/-- FINAL closes an open context without touching its counters (R150, R153). -/
theorem Inv.closeContext {s : State} (h : Inv s) (hm : s.mode = .streaming) :
    Inv (closeContext (compress true (padBlock s))) := by
  have hopen : s.mode ≠ .idle := by rw [hm]; decide
  have hclosed : Inv { compress true (padBlock s) with mode := .finalized } :=
    ⟨padBlock_wf h.bufferCanonical, fun _ => h.outlenLegal hopen, fun _ => h.fillMatches hopen, h.responsesSized⟩
  exact hclosed.respond (responseSized_digest _ _)

theorem Inv.exec {s s' : State} (h : Inv s) {i : Instr} (hexec : exec i s = .next s') : Inv s' := by
  obtain ⟨status, info, hne, he⟩ | ⟨klen, nn, key, -, hlegal, he⟩ | ⟨data, -, -, ht, he⟩ | ⟨-, hm, he⟩ :=
    exec_cases i s
  all_goals rw [hexec] at he; cases he
  · exact h.respond (responseSized_error info hne)
  · exact (h.openContext key hlegal).respond responseSized_ok
  · exact (h.absorbLoop data ht).respond responseSized_ok
  · exact h.closeContext hm

/-- The reset event leaves mode IDLE, a canonical buffer and the responses emitted before it (R260). -/
theorem Inv.takeReset {s : State} (h : Inv s) : Inv (takeReset s) where
  bufferCanonical := by rw [takeReset_buf]; exact freeBuffer_wf _
  outlenLegal hm := absurd (takeReset_mode s) hm
  fillMatches hm := absurd (takeReset_mode s) hm
  responsesSized := h.responsesSized

/-- Right after reset the context clauses bind nothing (R37). -/
theorem PowerUp.inv {s : State} (h : PowerUp s) : Inv s := by
  obtain ⟨hmode, hwf, -, hout, -⟩ := h
  exact ⟨hwf, fun hm => absurd hmode hm, fun hm => absurd hmode hm, by simp [hout]⟩

/-- Settles O2, by what a step can do: the reset event, a command, or the answer to an illegal word. -/
theorem everyStepKeepsTheInvariant : Obligations.EveryStepKeepsTheInvariant := by
  unfold Obligations.EveryStepKeepsTheInvariant
  intro s s' h hstep
  obtain ⟨-, rfl⟩ | ⟨-, i, rest, -, hexec⟩ | ⟨-, cw, rest, -, rfl⟩ := step_cases hstep
  · exact h.takeReset
  · exact (h.withInput rest s.resetIn).exec hexec
  · exact (h.withInput rest s.resetIn).respond (responseSized_error _ (by decide))

/-- Settles O3, by induction on how the state was reached; O2 is the case of a step. -/
theorem invariantHoldsInEveryReachableState : Obligations.InvariantHoldsInEveryReachableState := by
  unfold Obligations.InvariantHoldsInEveryReachableState
  intro s hs
  induction hs with
  | powerUp h => exact h.inv
  | @send s bytes _ ih => exact ih.withInput (s.input ++ bytes) s.resetIn
  | @reset s _ ih => exact ih.withInput s.input true
  | step _ next ih => exact everyStepKeepsTheInvariant _ _ ih next

/-- Settles O1: the reset state is a power-up state. -/
theorem resetIsIdleAndMeetsTheInvariant : Obligations.ResetIsIdleAndMeetsTheInvariant := by
  unfold Obligations.ResetIsIdleAndMeetsTheInvariant
  have hpower : PowerUp State.reset := ⟨rfl, wf_nil, rfl, rfl, rfl⟩
  exact ⟨rfl, hpower.inv, hpower⟩

end Sys2Proof.Safety
end

section
/-! What the spec leaves unspecified never reaches the host (R37, R65, R153, R261). -/

namespace Sys2Proof.Safety

open Sys2Proof.Machine

section
variable {s1 s2 : State}

theorem HostAlike.respond (h : HostAlike s1 s2) (status : Status) (info : Byte) (data : List Byte) :
    HostAlike (respond status info data s1) (respond status info data s2) :=
  ⟨h.mode, h.input, by rw [respond_out, respond_out, h.out], h.resetIn, h.context⟩

theorem HostAlike.withInput (h : HostAlike s1 s2) (input : List Byte) :
    HostAlike { s1 with input := input } { s2 with input := input } :=
  ⟨h.mode, rfl, h.out, h.resetIn, h.context⟩

/-- Alike states in STREAMING have absorbed the same bytes from the same chaining words and count. -/
theorem HostAlike.absorbed (h : HostAlike s1 s2) (hm : s1.mode = .streaming) :
    Absorbed s1.h (s1.t - BitVec.ofNat 64 s1.c.val) (memRead s1.buf 0 s1.c.val) s2 := by
  obtain ⟨hh, hc, ht, -, hbuf⟩ := h.context hm
  have hpending := absorbed_pending s2
  rwa [← hh, ← ht, ← hc, ← (memRead_eq_iff s1.buf s2.buf s1.c.val).2 hbuf] at hpending

/-- Outside STREAMING the context is no part of what alike states share. -/
theorem HostAlike.of_not_streaming (hm : s1.mode ≠ .streaming) (hmode : s1.mode = s2.mode) (hinput : s1.input = s2.input)
    (hout : s1.out = s2.out) (hreset : s1.resetIn = s2.resetIn) : HostAlike s1 s2 :=
  ⟨hmode, hinput, hout, hreset, fun h => absurd h hm⟩

/-- The reset event leaves nothing specified but the responses (R260). -/
theorem HostAlike.takeReset (h : HostAlike s1 s2) : HostAlike (takeReset s1) (takeReset s2) := by
  apply HostAlike.of_not_streaming
  · rw [takeReset_mode]; decide
  · rw [takeReset_mode, takeReset_mode]
  · rw [takeReset_input, takeReset_input]
  · rw [takeReset_out, takeReset_out, h.out]
  · rw [takeReset_resetIn, takeReset_resetIn]

/-- The contexts one INIT opens are alike: the key's block covers the whole buffer, and without a key nothing of the
buffer counts (R112, R113, R115). -/
theorem HostAlike.openContext (h : HostAlike s1 s2) {klen nn : Byte} {key : List Byte} (hlegal : legalInit klen nn)
    (hkey : key.length = klen.toNat) : HostAlike (openContext klen nn key s1) (openContext klen nn key s2) := by
  have hklen : klen = BitVec.ofNat 8 key.length := by rw [hkey, BitVec.ofNat_toNat, BitVec.setWidth_eq]
  have hle : key.length ≤ 64 := hkey.trans_le hlegal.2.2
  have frame (s : State) : (Machine.openContext klen nn key s).input = s.input
      ∧ (Machine.openContext klen nn key s).resetIn = s.resetIn := by
    unfold Machine.openContext; split <;> exact ⟨rfl, rfl⟩
  obtain ⟨hmode1, houtlen1, hout1⟩ := openContext_frame klen nn key s1
  obtain ⟨hmode2, houtlen2, hout2⟩ := openContext_frame klen nn key s2
  obtain ⟨hinput1, hreset1⟩ := frame s1
  obtain ⟨hinput2, hreset2⟩ := frame s2
  constructor
  case mode => rw [hmode1, hmode2]
  case input => rw [hinput1, hinput2, h.input]
  case out => rw [hout1, hout2, h.out]
  case resetIn => rw [hreset1, hreset2, h.resetIn]
  case context =>
    intro _
    have habs (s : State) := openContext_absorbed key nn s hle
    rw [← hklen] at habs
    obtain ⟨hh, hc, ht, hbuf⟩ := (habs s1).context_eq (habs s2)
    exact ⟨hh, hc, ht, houtlen1.trans houtlen2.symm, hbuf⟩

/-- UPDATE's loop reads no buffer byte that it or an earlier command has not written (R65). -/
theorem HostAlike.absorbLoop (h : HostAlike s1 s2) (hm : s1.mode = .streaming) (data : List Byte) :
    HostAlike (absorbLoop data.length data s1) (absorbLoop data.length data s2) := by
  obtain ⟨houtlen1, hmode1, hinput1, hout1, hreset1, -⟩ := absorbLoop_frame data.length data s1
  obtain ⟨houtlen2, hmode2, hinput2, hout2, hreset2, -⟩ := absorbLoop_frame data.length data s2
  constructor
  case mode => rw [hmode1, hmode2, h.mode]
  case input => rw [hinput1, hinput2, h.input]
  case out => rw [hout1, hout2, h.out]
  case resetIn => rw [hreset1, hreset2, h.resetIn]
  case context =>
    intro _
    obtain ⟨-, -, -, houtlen, -⟩ := h.context hm
    obtain ⟨hh, hc, ht, hbuf⟩ := (absorbLoop_absorbed data s1).context_eq ((h.absorbed hm).absorbLoop le_rfl)
    exact ⟨hh, hc, ht, houtlen1.trans (houtlen.trans houtlen2.symm), hbuf⟩

/-- FINAL compresses the padded block, in which no unspecified byte is left, and answers alike (R151, R153). -/
theorem HostAlike.closeContext (h : HostAlike s1 s2) (hm : s1.mode = .streaming) :
    HostAlike (closeContext (compress true (padBlock s1))) (closeContext (compress true (padBlock s2))) := by
  obtain ⟨hh, hc, ht, houtlen, -⟩ := h.context hm
  have hload : loadM (padBlock s1).buf = loadM (padBlock s2).buf :=
    (absorbed_pending s1).loadM_padded.trans (h.absorbed hm).loadM_padded.symm
  apply HostAlike.of_not_streaming
  · rw [closeContext_mode]; decide
  · rw [closeContext_mode, closeContext_mode]
  · simp only [closeContext_input, compress_input, padBlock_input, h.input]
  · simp only [closeContext_out, compress_out, compress_outlen, compress_h, padBlock_out, padBlock_outlen, padBlock_h,
      padBlock_t, hload, h.out, hh, ht, houtlen]
  · simp only [closeContext_resetIn, compress_resetIn, padBlock_resetIn, h.resetIn]

/-- A command that a stream can carry has alike effects on alike states. -/
theorem HostAlike.exec (h : HostAlike s1 s2) {i : Instr} (hwf : i.wf = true) :
    ∃ u1 u2, exec i s1 = .next u1 ∧ exec i s2 = .next u2 ∧ HostAlike u1 u2 := by
  have hmode := h.mode
  cases i with
  | init klen nn key =>
    by_cases hlegal : legalInit klen nn
    · exact ⟨_, _, execInit_accepted key s1 hlegal, execInit_accepted key s2 hlegal,
        (h.openContext hlegal (beq_iff_eq.1 hwf)).respond _ _ _⟩
    · exact ⟨_, _, execInit_refused key s1 hlegal, execInit_refused key s2 hlegal, h.respond _ _ _⟩
  | update data =>
    by_cases hm : s1.mode = .streaming
    · have hm2 := hmode ▸ hm
      obtain ⟨-, -, ht, -⟩ := h.context hm
      by_cases hle : s1.t.toNat + data.length ≤ 2 ^ 64 - 1
      · exact ⟨_, _, execUpdate_accepted hm hle, execUpdate_accepted hm2 (ht ▸ hle), (h.absorbLoop hm data).respond _ _ _⟩
      · have hover := Nat.lt_of_not_le hle
        exact ⟨_, _, execUpdate_overflow hm hover, execUpdate_overflow hm2 (ht ▸ hover), h.respond _ _ _⟩
    · have hm2 := hmode ▸ hm
      exact ⟨_, _, execUpdate_wrong_mode data hm, execUpdate_wrong_mode data hm2, hmode ▸ h.respond _ _ _⟩
  | final =>
    by_cases hm : s1.mode = .streaming
    · exact ⟨_, _, execFinal_accepted hm, execFinal_accepted (hmode ▸ hm), h.closeContext hm⟩
    · exact ⟨_, _, execFinal_wrong_mode hm, execFinal_wrong_mode (hmode ▸ hm), hmode ▸ h.respond _ _ _⟩

end

/-- Settles O4: alike states take the reset event together, or read the same command, or both wait. -/
theorem unspecifiedStateNeverReachesTheHost : Obligations.UnspecifiedStateNeverReachesTheHost := by
  unfold Obligations.UnspecifiedStateNeverReachesTheHost
  intro s1 s2 h
  cases hr : s1.resetIn with
  | true =>
    exact .inl ⟨_, _, step_of_resetIn hr, step_of_resetIn (h.resetIn ▸ hr), h.takeReset⟩
  | false =>
    have hr2 : s2.resetIn = false := h.resetIn ▸ hr
    cases hf : fetch s1.input with
    | command i rest =>
      rw [step_of_fetch_command hr hf, step_of_fetch_command hr2 (h.input ▸ hf)]
      exact .inl ((h.withInput rest).exec (wf_of_fetch hf))
    | illegal cw rest =>
      exact .inl ⟨_, _, step_of_fetch_illegal hr hf, step_of_fetch_illegal hr2 (h.input ▸ hf),
        (h.withInput rest).respond _ _ _⟩
    | incomplete => exact .inr ⟨step_of_fetch_incomplete hr hf, step_of_fetch_incomplete hr2 (h.input ▸ hf)⟩

/-- Alike states have alike runs: O4, step after step. -/
theorem HostAlike.run {s1 s2 : State} (h : HostAlike s1 s2) (n : Nat) :
    (∃ u1 u2, Host.Core.run core n s1 = .next u1 ∧ Host.Core.run core n s2 = .next u2 ∧ HostAlike u1 u2)
      ∨ (Host.Core.run core n s1 = .fault .incompleteCommand ∧ Host.Core.run core n s2 = .fault .incompleteCommand) := by
  induction n generalizing s1 s2 with
  | zero => exact .inl ⟨s1, s2, rfl, rfl, h⟩
  | succ n ih =>
    simp only [Host.Core.run, Host.Check.core_step]
    obtain ⟨u1, u2, hstep1, hstep2, hu⟩ | ⟨hstep1, hstep2⟩ := unspecifiedStateNeverReachesTheHost s1 s2 h
    · rw [hstep1, hstep2]
      exact ih hu
    · rw [hstep1, hstep2]
      exact .inr ⟨rfl, rfl⟩

/-- Settles O5: power-up states are alike, and stay so when they are sent the same bytes. -/
theorem anyPowerUpStateAnswersAlike : Obligations.AnyPowerUpStateAnswersAlike := by
  unfold Obligations.AnyPowerUpStateAnswersAlike
  intro s1 s2 bytes n hp1 hp2
  obtain ⟨hmode1, -, hinput1, hout1, hreset1⟩ := hp1
  obtain ⟨hmode2, -, hinput2, hout2, hreset2⟩ := hp2
  have halike : HostAlike (hostSend bytes s1) (hostSend bytes s2) := by
    apply HostAlike.of_not_streaming
    · rw [hostSend_mode, hmode1]; decide
    · rw [hostSend_mode, hostSend_mode, hmode1, hmode2]
    · rw [hostSend_input, hostSend_input, hinput1, hinput2]
    · rw [hostSend_out, hostSend_out, hout1, hout2]
    · rw [hostSend_resetIn, hostSend_resetIn, hreset1, hreset2]
  obtain ⟨u1, u2, hrun1, hrun2, hu⟩ | hwait := halike.run n
  · exact .inl ⟨u1, u2, hrun1, hrun2, hu.out, hu.mode⟩
  · exact .inr hwait

end Sys2Proof.Safety
end

section
/-! The frame of UPDATE (R36) and the context as a function of the bytes sent (R35, R137). -/

namespace Sys2Proof.Safety

open Sys2Proof.Machine

/-- UPDATE's loop writes only the offsets its bytes fall on, counted modulo 128 (R36, R130). -/
theorem absorbLoop_read_of_untouched {passes : Nat} {data : List Byte} {s : State} {a : Nat}
    (h : ∀ k, k < data.length → (s.c.val + k) % 128 ≠ a) :
    Memory.read (absorbLoop passes data s).buf a = Memory.read s.buf a := by
  induction passes generalizing data s with
  | zero => rfl
  | succ passes ih =>
    cases data with
    | nil => rfl
    | cons b data =>
      have hfill := flushFull_fill s
      obtain ⟨-, hle, hfit⟩ := copyCount_spec (remaining := (b :: data).length) (by simp) (flushFull_fill_lt s)
      rw [absorbLoop]
      generalize copyCount (b :: data).length (flushFull s).c = n at hle hfit ⊢
      have hlen : ((b :: data).take n).length = n := List.length_take_of_le hle
      have hcopy : Memory.read (absorbBytes ((b :: data).take n) (flushFull s)).buf a = Memory.read s.buf a := by
        rw [absorbBytes_buf, read_memWrite, dif_neg, flushFull_buf]
        rintro ⟨hge, hlt⟩
        exact h (a - (flushFull s).c.val) (by omega) (by omega)
      refine (ih fun k hk => ?_).trans hcopy
      rw [List.length_drop] at hk
      rw [absorbBytes_c, hlen, advanceFill_val _ _ hfit]
      have := h (n + k) (by omega)
      omega

/-- While the bytes fit the buffer, UPDATE's loop compresses nothing (R130). -/
theorem absorbLoop_h_of_fits {data : List Byte} {s : State} (h : s.c.val + data.length ≤ 128) :
    (absorbLoop data.length data s).h = s.h := by
  have hblocks : blocksBeforeLast (memRead s.buf 0 s.c.val ++ data).length = 0 := by
    rw [List.length_append, memRead_length, blocksBeforeLast]
    omega
  rw [(absorbLoop_absorbed data s).hash, hblocks, chain_zero]

/-- Settles O31: the fields by the loop's frame, `h` and the buffer by the two lemmas above. -/
theorem updateLeavesTheRestAlone : Obligations.UpdateLeavesTheRestAlone := by
  unfold Obligations.UpdateLeavesTheRestAlone
  intro data s hmode ht
  obtain ⟨houtlen, hmode', hinput, hout, hreset, hdraws⟩ := absorbLoop_frame data.length data s
  refine ⟨_, execUpdate_accepted hmode ht, houtlen, hmode', hinput, hreset, hdraws, ?_, absorbLoop_h_of_fits,
    fun a ha => absorbLoop_read_of_untouched ha⟩
  rw [respond_out, hout]

/-- The key's block counts 128 bytes (R112). -/
theorem hashedStream_length {key : List Byte} (message : List Byte) (hkey : key.length ≤ 64) :
    (hashedStream key message).length = (if key = [] then 0 else 128) + message.length := by
  rw [hashedStream, List.length_append]
  split
  · rfl
  · rw [List.length_append, zeros_length]
    omega

/-- Settles O33: INIT and the UPDATE commands leave the whole stream absorbed; `t - c` counts its compressed bytes. -/
theorem streamingContextIsAFunctionOfTheBytesSent : Obligations.StreamingContextIsAFunctionOfTheBytesSent := by
  unfold Obligations.StreamingContextIsAFunctionOfTheBytesSent
  intro key nn chunks s hkey hnn hnn' hbound
  obtain ⟨u, hrun, hmode, houtlen, -, habs⟩ := execAll_init_updates_absorbed s hkey hnn hnn' hbound
  have ht : u.t.toNat = (hashedStream key chunks.flatten).length := by
    rw [habs.counter_toNat (by simpa using hbound), BitVec.toNat_zero, Nat.zero_add]
  have hcompressed : u.t.toNat - u.c.val = 128 * blocksBeforeLast (hashedStream key chunks.flatten).length := by
    rw [ht]
    exact Nat.sub_eq_of_eq_add habs.fill.symm
  refine ⟨u, hrun, hmode, houtlen, habs.fillMatchesCounter hbound, ?_, ?_, ?_⟩
  · rw [ht, hashedStream_length _ hkey]
  · rw [hcompressed, Nat.mul_div_cancel_left _ (by decide), habs.hash]
  · rw [hcompressed, habs.pending]

end Sys2Proof.Safety
end

section
/-! Byte order (R52, R54): the message words of the buffer. -/

namespace Sys2Proof.Machine

theorem le64_cons (b : Byte) (bs : List Byte) : le64 (b :: bs) = (le64 bs <<< 8) ||| b.setWidth 64 := rfl

/-- `LE64` reads its bytes as the digits of a number in base 256 (R10). -/
theorem le64_toNat (bs : List Byte) (h : bs.length ≤ 8) : (le64 bs).toNat = Nat.ofDigits 256 (bs.map BitVec.toNat) := by
  induction bs with
  | nil => rfl
  | cons b bs ih =>
    have hlen : bs.length ≤ 7 := Nat.le_of_succ_le_succ h
    have htail : (le64 bs).toNat < 256 ^ 7 := by
      rw [ih (by omega)]
      calc Nat.ofDigits 256 (bs.map BitVec.toNat)
        _ < 256 ^ (bs.map BitVec.toNat).length :=
          Nat.ofDigits_lt_base_pow_length (by decide) (by simpa using fun b _ => b.isLt)
        _ ≤ 256 ^ 7 := Nat.pow_le_pow_right (by decide) (by simpa using hlen)
    have hb := b.isLt
    rw [List.map_cons, Nat.ofDigits_cons, ← ih (by omega), le64_cons, BitVec.toNat_or, BitVec.toNat_shiftLeft,
      BitVec.toNat_setWidth, Nat.mod_eq_of_lt (by rw [Nat.shiftLeft_eq]; omega), Nat.mod_eq_of_lt (by omega),
      ← Nat.shiftLeft_add_eq_or_of_lt hb, Nat.shiftLeft_eq]
    omega

/-- Bit `j` of byte `k` is bit `8k + j` of the word (R10). -/
theorem le64_getLsbD (bs : List Byte) {k j : Nat} (hk : k < bs.length) (hj : j < 8) (hword : 8 * k + j < 64) :
    (le64 bs).getLsbD (8 * k + j) = bs[k].getLsbD j := by
  induction bs generalizing k with
  | nil => cases hk
  | cons b bs ih =>
    rw [le64_cons, BitVec.getLsbD_or, BitVec.getLsbD_shiftLeft, BitVec.getLsbD_setWidth]
    cases k with
    | zero =>
      have hj64 : j < 64 := by omega
      simp [hj, hj64]
    | succ k =>
      rw [Nat.mul_succ, Nat.add_right_comm] at hword ⊢
      rw [Nat.add_sub_cancel, ih (Nat.lt_of_succ_lt_succ hk) (by omega), BitVec.getLsbD_of_ge b _ (by omega)]
      simp [hword]

/-- Message word `i` is read from the buffer bytes at offsets 8i to 8i+7 (R52, R171). -/
theorem loadM_getElem (buf : Memory) {i : Nat} (hi : i < 16) : (loadM buf)[i] = le64 (memRead buf (8 * i) 8) := by
  have hslice : ((memRead buf 0 Config.blockBytes).drop (8 * i)).take 8 = memRead buf (8 * i) 8 := by
    apply List.ext_getElem
    · simp only [List.length_take, List.length_drop, memRead_length, Config.blockBytes]
      omega
    · intro k _ _
      rw [List.getElem_take, List.getElem_drop, memRead_getElem, memRead_getElem, Nat.zero_add]
  rw [loadM, wordsOfBlock, Vector.getElem_ofFn, hslice]

/-- Settles O7: the word's base-256 digits are its eight buffer bytes. -/
theorem messageWordsAreLittleEndian : Obligations.MessageWordsAreLittleEndian := by
  unfold Obligations.MessageWordsAreLittleEndian
  intro buf i
  rw [Fin.getElem_fin, loadM_getElem buf i.isLt, le64_toNat _ (by rw [memRead_length])]
  simp only [memRead, List.range_succ, List.range_zero, List.nil_append, List.cons_append, List.map_cons, List.map_nil,
    Nat.ofDigits_cons, Nat.ofDigits_nil, Finset.sum_range_succ, Finset.sum_range_zero]
  omega

/-- Settles O8: byte `o` of the buffer is byte `o mod 8` of the bytes that word `o div 8` is read from. -/
theorem bufferByteIsItsSliceOfAMessageWord : Obligations.BufferByteIsItsSliceOfAMessageWord := by
  unfold Obligations.BufferByteIsItsSliceOfAMessageWord
  intro buf o b
  rw [loadM_getElem, le64_getLsbD _ (by rw [memRead_length]; omega) b.isLt (by omega), memRead_getElem,
    Nat.div_add_mod]

end Sys2Proof.Machine
end

section
/-! The digest's bytes (R53, R152). -/

namespace Sys2Proof.Machine

theorem byteOf_toNat (k : Nat) (x : Word) : (byteOf k x).toNat = (x.toNat >>> (8 * k)) % 256 :=
  BitVec.extractLsb'_toNat _ _ _

theorem bytesLE_getElem (x : Word) {k : Nat} (hk : k < (bytesLE x).length) : (bytesLE x)[k] = byteOf k x := by
  simp only [bytesLE, List.getElem_map, List.getElem_range]

/-- Byte `i` of words written out little-endian is byte `i mod 8` of word `i div 8` (R53). -/
theorem flatMap_bytesLE_getElem (words : List Word) {i : Nat} (hi : i < (words.flatMap bytesLE).length)
    (hw : i / 8 < words.length) : (words.flatMap bytesLE)[i] = byteOf (i % 8) words[i / 8] := by
  induction words generalizing i with
  | nil => cases hw
  | cons x words ih =>
    have hx := Safety.bytesLE_length x
    simp only [List.flatMap_cons]
    by_cases hfirst : i < 8
    · rw [List.getElem_append_left (by rw [hx]; exact hfirst), bytesLE_getElem]
      simp only [Nat.div_eq_of_lt hfirst, Nat.mod_eq_of_lt hfirst, List.getElem_cons_zero]
    · obtain ⟨j, rfl⟩ := Nat.exists_eq_add_of_le (Nat.le_of_not_lt hfirst)
      have hdiv : (8 + j) / 8 = j / 8 + 1 := Nat.add_div_left j (by decide)
      simp only [hdiv, List.length_cons, Nat.add_lt_add_iff_right] at hw
      rw [List.getElem_append_right (by rw [hx]; omega)]
      simp only [hx, hdiv, Nat.add_sub_cancel_left, Nat.add_mod_left, List.getElem_cons_succ]
      exact ih _ hw

theorem digest_getElem (h : Vector Word 8) (outlen : Nat) {i : Nat} (hi : i < (digest h outlen).length)
    (hw : i / 8 < 8) : (digest h outlen)[i] = byteOf (i % 8) h[i / 8] := by
  simp only [digest, List.getElem_take]
  rw [flatMap_bytesLE_getElem _ _ (by simpa using hw), Vector.getElem_toList]

/-- Settles O36: FINAL's response carries the digest of the `h` it leaves. -/
theorem digestIsTheLittleEndianPrefixOfTheHash : Obligations.DigestIsTheLittleEndianPrefixOfTheHash := by
  unfold Obligations.DigestIsTheLittleEndianPrefixOfTheHash
  intro s hmode
  refine ⟨_, _, execFinal_accepted hmode, closeContext_out _, rfl, ?_, Safety.digest_length _ s.outlen, ?_⟩
  · have := s.outlen.isLt
    rw [compress_outlen, padBlock_outlen, BitVec.toNat_ofNat]
    omega
  · intro i hi hw
    rw [closeContext_h, ← byteOf_toNat, digest_getElem _ _ hi hw]

end Sys2Proof.Machine
end

section
/-! A command read back from its bytes (R81, R87), and runs of the engine on the bytes of several commands. -/

namespace Sys2Proof

/-- A well-formed command announces the length of its payload (R87). -/
theorem payloadLength_headerOf {i : Instr} (h : i.wf = true) : payloadLength (headerOf i) = (payloadOf i).length := by
  rw [← decodeHeader_encodeWord]
  cases i with
  | init klen nn key => exact Laws.HeaderLength.init klen nn key h
  | update data => exact Laws.HeaderLength.update data h
  | final => exact Laws.HeaderLength.final h

theorem assembleCommand_headerOf (i : Instr) : assembleCommand (headerOf i) (payloadOf i) = some i := by
  cases i <;> rfl

/-- The decoder reads an encoded command back and leaves the bytes after it (R81 to R87, R93). -/
theorem fetch_encode_append {i : Instr} (h : i.wf = true) (rest : List Byte) :
    fetch (encode i ++ rest) = .command i rest := by
  have hlen := payloadLength_headerOf h
  rw [encode, wordBytes, List.append_assoc]
  simp only [List.cons_append, List.nil_append]
  rw [fetch_cons, commandWord_wordBytes, decodeHeader_encodeWord, hlen, if_pos (by simp), List.take_left,
    List.drop_left, assembleCommand_headerOf]

end Sys2Proof

namespace Sys2Proof.Machine

/-- Settles O13: a complete command on the stream is the one branch of the step that runs a command. -/
theorem stepRunsTheDecodedCommand : Obligations.StepRunsTheDecodedCommand :=
  fun _ _ _ => step_of_fetch_command

/-- The engine with the given bytes waiting on the command stream, and nothing else changed. -/
def State.withInput (s : State) (bytes : List Byte) : State := { s with input := bytes }

@[simp] theorem withInput_c (s : State) (bytes : List Byte) : (s.withInput bytes).c = s.c := rfl
@[simp] theorem withInput_input (s : State) (bytes : List Byte) : (s.withInput bytes).input = bytes := rfl
@[simp] theorem withInput_resetIn (s : State) (bytes : List Byte) : (s.withInput bytes).resetIn = s.resetIn := rfl

section
/-! No operation of a command looks at the bytes that wait behind it (R60). -/
variable (s : State) (bytes : List Byte)

theorem respond_withInput (status : Status) (info : Byte) (data : List Byte) :
    respond status info data (s.withInput bytes) = (respond status info data s).withInput bytes := rfl

theorem absorbBytes_withInput (chunk : List Byte) :
    absorbBytes chunk (s.withInput bytes) = (absorbBytes chunk s).withInput bytes := rfl

theorem closeContext_compress_padBlock_withInput :
    closeContext (compress true (padBlock (s.withInput bytes)))
      = (closeContext (compress true (padBlock s))).withInput bytes := rfl

theorem openContext_withInput (klen nn : Byte) (key : List Byte) :
    openContext klen nn key (s.withInput bytes) = (openContext klen nn key s).withInput bytes := by
  unfold openContext
  split <;> rfl

theorem flushFull_withInput : flushFull (s.withInput bytes) = (flushFull s).withInput bytes := by
  unfold flushFull
  rw [withInput_c]
  split <;> rfl

theorem absorbLoop_withInput (passes : Nat) (data : List Byte) :
    absorbLoop passes data (s.withInput bytes) = (absorbLoop passes data s).withInput bytes := by
  induction passes generalizing data s with
  | zero => rfl
  | succ n ih =>
    cases data with
    | nil => rfl
    | cons b data => simp only [absorbLoop, flushFull_withInput, absorbBytes_withInput, withInput_c, ih]

end

theorem openContext_resetIn (klen nn : Byte) (key : List Byte) (s : State) :
    (openContext klen nn key s).resetIn = s.resetIn := by
  unfold openContext
  split <;> rfl

/-- A command answers a next state, leaves the reset input alone (R239), and does the same whatever bytes wait behind
it (R60). -/
theorem exec_withInput (i : Instr) (s : State) :
    ∃ u, exec i s = .next u ∧ u.resetIn = s.resetIn
      ∧ ∀ bytes, exec i (s.withInput bytes) = .next (u.withInput bytes) := by
  cases i with
  | init klen nn key =>
    by_cases hlegal : legalInit klen nn
    · refine ⟨_, execInit_accepted key s hlegal, openContext_resetIn klen nn key s, fun bytes => ?_⟩
      rw [← respond_withInput, ← openContext_withInput]
      exact execInit_accepted key _ hlegal
    · exact ⟨_, execInit_refused key s hlegal, rfl, fun _ => execInit_refused key _ hlegal⟩
  | update data =>
    by_cases hmode : s.mode = .streaming
    · by_cases ht : s.t.toNat + data.length ≤ 2 ^ 64 - 1
      · obtain ⟨-, -, -, -, hreset, -⟩ := absorbLoop_frame data.length data s
        refine ⟨_, execUpdate_accepted hmode ht, hreset, fun bytes => ?_⟩
        rw [← respond_withInput, ← absorbLoop_withInput]
        exact execUpdate_accepted (s := s.withInput bytes) hmode ht
      · have ht := Nat.lt_of_not_le ht
        exact ⟨_, execUpdate_overflow hmode ht, rfl, fun bytes => execUpdate_overflow (s := s.withInput bytes) hmode ht⟩
    · exact ⟨_, execUpdate_wrong_mode data hmode, rfl, fun bytes =>
        execUpdate_wrong_mode (s := s.withInput bytes) data hmode⟩
  | final =>
    by_cases hmode : s.mode = .streaming
    · refine ⟨_, execFinal_accepted hmode, rfl, fun bytes => ?_⟩
      rw [← closeContext_compress_padBlock_withInput]
      exact execFinal_accepted (s := s.withInput bytes) hmode
    · exact ⟨_, execFinal_wrong_mode hmode, rfl, fun bytes => execFinal_wrong_mode (s := s.withInput bytes) hmode⟩

end Sys2Proof.Machine

namespace Sys2Proof.Safety

open Sys2Proof.Machine

/-- The step at a well-formed command's bytes runs the command and leaves the bytes behind it (R60, R87). -/
theorem step_encode_append {i : Instr} {s : State} (rest : List Byte) (hwf : i.wf = true) (hreset : s.resetIn = false) :
    step (s.withInput (encode i ++ rest)) = exec i (s.withInput rest) :=
  step_of_fetch_command (by rw [withInput_resetIn, hreset]) (by rw [withInput_input, fetch_encode_append hwf])

/-- A run that can take its first step is that step and the rest of the run. -/
theorem run_succ_of_step {s u : State} (n : Nat) (h : step s = .next u) :
    Host.Core.run core (n + 1) s = Host.Core.run core n u := by
  simp only [Host.Core.run, Host.Check.core_step, h]

/-- Running the bytes of a list of commands takes the commands one after another (R60, R87). -/
theorem run_encoded {is : List Instr} {s : State} (rest : List Byte) (hwf : ∀ i ∈ is, i.wf = true)
    (hreset : s.resetIn = false) :
    Host.Core.run core is.length (s.withInput (is.flatMap encode ++ rest)) = execAll is (s.withInput rest) := by
  induction is generalizing s with
  | nil => rfl
  | cons i is ih =>
    obtain ⟨hi, his⟩ := List.forall_mem_cons.1 hwf
    obtain ⟨u, -, hu, hexec⟩ := exec_withInput i s
    have hstep := (step_encode_append (is.flatMap encode ++ rest) hi hreset).trans (hexec _)
    rw [List.flatMap_cons, List.append_assoc, List.length_cons, run_succ_of_step _ hstep, ih his (hu.trans hreset),
      execAll_cons_of_exec is (hexec rest)]

/-- Settles O20: each step takes one command off the stream, and the bytes behind it play no part in what it does. -/
theorem streamRunsItsCommandsInOrder : Obligations.StreamRunsItsCommandsInOrder :=
  fun _ rest _ hwf hreset => run_encoded rest hwf hreset

end Sys2Proof.Safety
end

section
/-! The decoder taken apart (R86 to R90): which word gives which header, the payload length each header announces, and
what `fetch` answers. -/

namespace Sys2Proof

open Sys2Proof.Safety

theorem decodeHeader_eq_init_iff (cw : BitVec 32) (klen nn : Byte) :
    decodeHeader cw = .init klen nn ↔ cw.toNat = 0x0100 * 2 ^ 16 + klen.toNat * 2 ^ 8 + nn.toNat := by
  have hklen := klen.isLt; have hnn := nn.isLt
  rw [decodeHeader_eq]
  split_ifs
  · simp only [Header.init.injEq, ← BitVec.toNat_inj, BitVec.extractLsb'_toNat, Nat.shiftRight_eq_div_pow]
    omega
  all_goals simp only [false_iff]; omega

theorem decodeHeader_eq_update_iff (cw : BitVec 32) (len : BitVec 16) :
    decodeHeader cw = .update len ↔ cw.toNat = 0x0200 * 2 ^ 16 + len.toNat := by
  have hlen := len.isLt
  rw [decodeHeader_eq]
  split_ifs
  · simp only [false_iff]; omega
  · simp only [Header.update.injEq, ← BitVec.toNat_inj, BitVec.extractLsb'_toNat, Nat.shiftRight_eq_div_pow]
    omega
  all_goals simp only [false_iff]; omega

theorem decodeHeader_eq_final_iff (cw : BitVec 32) : decodeHeader cw = .final ↔ cw.toNat = 0x0300 * 2 ^ 16 := by
  rw [decodeHeader_eq]
  split_ifs <;> simp only [false_iff, true_iff] <;> omega

theorem decodeHeader_eq_illegal_iff (cw : BitVec 32) :
    decodeHeader cw = .illegal ↔
      cw.toNat / 2 ^ 16 ≠ 0x0100 ∧ cw.toNat / 2 ^ 16 ≠ 0x0200 ∧ cw.toNat ≠ 0x0300 * 2 ^ 16 := by
  rw [decodeHeader_eq]
  split_ifs <;> simp only [false_iff, true_iff] <;> omega

/-- A legal header is spelled by one word only: every bit of the word is an operand's or fixed (R86, R93). -/
theorem decodeHeader_inj {cw cw' : BitVec 32} (h : decodeHeader cw = decodeHeader cw')
    (hlegal : decodeHeader cw' ≠ .illegal) : cw = cw' := by
  apply BitVec.eq_of_toNat_eq
  cases hd : decodeHeader cw' with
  | init klen nn =>
    exact ((decodeHeader_eq_init_iff _ _ _).1 (h.trans hd)).trans ((decodeHeader_eq_init_iff _ _ _).1 hd).symm
  | update len =>
    exact ((decodeHeader_eq_update_iff _ _).1 (h.trans hd)).trans ((decodeHeader_eq_update_iff _ _).1 hd).symm
  | final => exact ((decodeHeader_eq_final_iff _).1 (h.trans hd)).trans ((decodeHeader_eq_final_iff _).1 hd).symm
  | illegal => exact absurd hd hlegal

/-- Settles O11, on the numeric value of the word's fields. -/
theorem illegalWordsAreThoseOfNoFormat : Obligations.IllegalWordsAreThoseOfNoFormat := by
  unfold Obligations.IllegalWordsAreThoseOfNoFormat
  intro cw
  have hcw := cw.isLt
  rw [decodeHeader_eq_illegal_iff]
  simp only [ne_eq, ← BitVec.toNat_inj, BitVec.extractLsb'_toNat, Nat.shiftRight_eq_div_pow, BitVec.toNat_ofNat]
  omega

/-- The word of four bytes in arrival order, as a number: the first byte is the lowest (R81). -/
theorem commandWord_toNat (s0 s1 s2 s3 : Byte) :
    (commandWord s0 s1 s2 s3).toNat = s3.toNat * 2 ^ 24 + s2.toNat * 2 ^ 16 + s1.toNat * 2 ^ 8 + s0.toNat := by
  have h0 := s0.isLt; have h1 := s1.isLt; have h2 := s2.isLt
  simp only [commandWord, BitVec.toNat_append]
  rw [← Nat.shiftLeft_add_eq_or_of_lt h0, ← Nat.shiftLeft_add_eq_or_of_lt h1, ← Nat.shiftLeft_add_eq_or_of_lt h2]
  simp only [Nat.shiftLeft_eq]
  omega

/-- The payload length the decoder takes is the one the header bytes announce (R86, R87). -/
theorem payloadLength_decodeHeader (s0 s1 s2 s3 : Byte) :
    payloadLength (decodeHeader (commandWord s0 s1 s2 s3)) = announced s0 s1 s2 s3 := by
  have h0 := s0.isLt; have h1 := s1.isLt; have h2 := s2.isLt; have h3 := s3.isLt
  have hcw := commandWord_toNat s0 s1 s2 s3
  simp only [announced, ← BitVec.toNat_inj, BitVec.toNat_ofNat]
  cases hd : decodeHeader (commandWord s0 s1 s2 s3) with
  | init klen nn =>
    rw [decodeHeader_eq_init_iff] at hd
    have := klen.isLt; have := nn.isLt
    rw [payloadLength, if_pos (by omega)]
    omega
  | update len =>
    rw [decodeHeader_eq_update_iff] at hd
    have := len.isLt
    rw [payloadLength, if_neg (by omega), if_pos (by omega)]
    omega
  | final =>
    rw [decodeHeader_eq_final_iff] at hd
    rw [payloadLength, if_neg (by omega), if_neg (by omega)]
  | illegal =>
    rw [decodeHeader_eq_illegal_iff] at hd
    rw [payloadLength, if_neg (by omega), if_neg (by omega)]

/-- Too few bytes for a header, or for the payload it announces (R90). -/
def AwaitsBytes (bytes : List Byte) : Prop :=
  bytes.length < 4 ∨ ∃ s0 s1 s2 s3 more, bytes = s0 :: s1 :: s2 :: s3 :: more ∧ more.length < announced s0 s1 s2 s3

/-- Everything the decoder can answer: that bytes are missing, or, with the header and the announced payload taken off, a
command or a word of no format (R87, R88, R90). -/
theorem fetch_cases (bytes : List Byte) :
    (AwaitsBytes bytes ∧ fetch bytes = .incomplete)
      ∨ ∃ s0 s1 s2 s3 more, bytes = s0 :: s1 :: s2 :: s3 :: more ∧ announced s0 s1 s2 s3 ≤ more.length
          ∧ ((∃ i, assembleCommand (decodeHeader (commandWord s0 s1 s2 s3)) (more.take (announced s0 s1 s2 s3)) = some i
                ∧ fetch bytes = .command i (more.drop (announced s0 s1 s2 s3)))
              ∨ fetch bytes = .illegal (commandWord s0 s1 s2 s3) (more.drop (announced s0 s1 s2 s3))) := by
  match bytes with
  | [] | [_] | [_, _] | [_, _, _] => exact .inl ⟨.inl (by simp), rfl⟩
  | s0 :: s1 :: s2 :: s3 :: more =>
    rw [fetch_cons, payloadLength_decodeHeader]
    rcases Nat.lt_or_ge more.length (announced s0 s1 s2 s3) with hmissing | hle
    · exact .inl ⟨.inr ⟨s0, s1, s2, s3, more, rfl, hmissing⟩, if_neg (Nat.not_le_of_lt hmissing)⟩
    · rw [if_pos hle]
      refine .inr ⟨s0, s1, s2, s3, more, rfl, hle, ?_⟩
      cases hasm : assembleCommand (decodeHeader (commandWord s0 s1 s2 s3)) (more.take (announced s0 s1 s2 s3)) with
      | some i => exact .inl ⟨i, rfl, rfl⟩
      | none => exact .inr rfl

theorem fetch_eq_incomplete_iff (bytes : List Byte) : fetch bytes = .incomplete ↔ AwaitsBytes bytes := by
  obtain ⟨hwait, hf⟩ | ⟨s0, s1, s2, s3, more, rfl, hle, hf⟩ := fetch_cases bytes
  · exact iff_of_true hf hwait
  · apply iff_of_false
    · obtain ⟨i, -, hf⟩ | hf := hf
      all_goals rw [hf]; exact nofun
    · rintro (hshort | ⟨_, _, _, _, _, heq, hmissing⟩)
      · exact absurd hshort (by simp)
      · cases heq
        exact absurd hmissing (Nat.not_lt_of_le hle)

/-- Settles O9. -/
theorem decodingInvertsEncoding : Obligations.DecodingInvertsEncoding :=
  fun _ rest hwf => fetch_encode_append hwf rest

/-- The header and the payload of a command are those it was made of (R93). -/
theorem of_assembleCommand {hd : Header} {payload : List Byte} {i : Instr} (h : assembleCommand hd payload = some i)
    (hlen : payload.length = payloadLength hd) : headerOf i = hd ∧ payloadOf i = payload := by
  cases hd with
  | init klen nn => cases h; exact ⟨rfl, rfl⟩
  | update len =>
    cases h
    rw [payloadLength] at hlen
    exact ⟨by rw [headerOf, hlen, BitVec.ofNat_toNat, BitVec.setWidth_eq], rfl⟩
  | final => cases h; exact ⟨rfl, (List.length_eq_zero_iff.1 hlen).symm⟩
  | illegal => cases h

theorem headerOf_ne_illegal (i : Instr) : headerOf i ≠ .illegal := by
  cases i <;> simp only [headerOf, ne_eq, reduceCtorEq, not_false_eq_true]

/-- Settles O10: the header word is the command's, for a legal header has one word, and the payload is what the header
announced. -/
theorem everyCommandHasOneSpelling : Obligations.EveryCommandHasOneSpelling := by
  unfold Obligations.EveryCommandHasOneSpelling
  intro bytes i rest h
  refine ⟨wf_of_fetch h, ?_⟩
  obtain ⟨-, hf⟩ | ⟨s0, s1, s2, s3, more, hbytes, hle, ⟨j, hasm, hf⟩ | hf⟩ := fetch_cases bytes
  all_goals cases h.symm.trans hf
  obtain ⟨hheader, hpayload⟩ := of_assembleCommand hasm
    (by rw [List.length_take_of_le hle, payloadLength_decodeHeader])
  have hlegal : decodeHeader (commandWord s0 s1 s2 s3) ≠ .illegal := hheader ▸ headerOf_ne_illegal i
  have hword : encodeWord i = commandWord s0 s1 s2 s3 :=
    decodeHeader_inj ((decodeHeader_encodeWord i).trans hheader) hlegal
  rw [hbytes, encode, hword, wordBytes_commandWord, hpayload, List.append_assoc, List.take_append_drop]
  rfl

/-- Settles O12, by reading each byte string. -/
theorem workedEncodingsDecode : Obligations.WorkedEncodingsDecode := by
  unfold Obligations.WorkedEncodingsDecode
  decide

end Sys2Proof
end

section
/-! What every step does to the two streams: the bytes it consumes (R87, R90) and the response it emits (R91, R230). -/

namespace Sys2Proof.Machine

open Sys2Proof.Safety

/-- No command's meaning touches the waiting bytes (R60). -/
theorem exec_input {i : Instr} {s s' : State} (h : exec i s = .next s') : s'.input = s.input := by
  obtain ⟨u, -, -, hu⟩ := exec_withInput i s
  cases h.symm.trans (hu s.input)
  exact withInput_input u s.input

/-- Settles O14: what is left after a step is what the decoder left, for neither a command's meaning nor the answer to an
illegal word takes a byte. -/
theorem everyCommandConsumesItsLength : Obligations.EveryCommandConsumesItsLength := by
  unfold Obligations.EveryCommandConsumesItsLength
  intro s s' hreset hstep
  obtain ⟨hr, -⟩ | ⟨-, i, rest, hf, hexec⟩ | ⟨-, cw, rest, hf, rfl⟩ := step_cases hstep
  · rw [hreset] at hr; cases hr
  all_goals
    obtain ⟨-, hf'⟩ | ⟨s0, s1, s2, s3, more, hinput, hle, ⟨j, -, hf'⟩ | hf'⟩ := fetch_cases s.input
    all_goals cases hf.symm.trans hf'
  · exact ⟨s0, s1, s2, s3, more, hinput, hle, exec_input hexec⟩
  · exact ⟨s0, s1, s2, s3, more, hinput, hle, respond_input ..⟩

/-- The engine waits exactly when the decoder finds no complete command: commands and illegal words are all answered. -/
theorem step_eq_incompleteCommand_iff {s : State} (hreset : s.resetIn = false) :
    step s = .fault .incompleteCommand ↔ fetch s.input = .incomplete := by
  refine ⟨fun h => ?_, step_of_fetch_incomplete hreset⟩
  cases hf : fetch s.input with
  | command i rest =>
    obtain ⟨u, hu, -, -⟩ := exec_withInput i { s with input := rest }
    rw [step_of_fetch_command hreset hf, hu] at h
    cases h
  | illegal cw rest =>
    rw [step_of_fetch_illegal hreset hf] at h
    cases h
  | incomplete => rfl

/-- Settles O15. -/
theorem incompleteCommandHasNoStep : Obligations.IncompleteCommandHasNoStep :=
  fun s hreset => (step_eq_incompleteCommand_iff hreset).trans (fetch_eq_incomplete_iff s.input)

/-- A command emits one response of the announced length, and if it is not OK, emits it without data and does nothing
else (R91, R230, R237). -/
theorem exec_answers {i : Instr} {s s' : State} (h : exec i s = .next s') :
    ∃ r : Response, s'.out = s.out ++ [r] ∧ ResponseSized r
      ∧ (r.status ≠ .ok → r.data = [] ∧ s' = respond r.status r.info [] s) := by
  obtain ⟨status, info, hne, he⟩ | ⟨klen, nn, key, -, -, he⟩ | ⟨data, -, -, -, he⟩ | ⟨-, -, he⟩ := exec_cases i s
  all_goals rw [h] at he; cases he
  · exact ⟨_, respond_out .., responseSized_error info hne, fun _ => ⟨rfl, rfl⟩⟩
  · obtain ⟨-, -, hout⟩ := openContext_frame klen nn key s
    exact ⟨_, by rw [respond_out, hout], responseSized_ok, fun hne => absurd rfl hne⟩
  · obtain ⟨-, -, -, hout, -, -⟩ := absorbLoop_frame data.length data s
    exact ⟨_, by rw [respond_out, hout], responseSized_ok, fun hne => absurd rfl hne⟩
  · exact ⟨_, closeContext_out _, responseSized_digest _ s.outlen, fun hne => absurd rfl hne⟩

/-- Settles O18: a step without reset answers by a command or by the refusal of an illegal word, and a refusal is its
response and nothing else. -/
theorem oneResponsePerCommandAndRefusalsChangeNothing :
    Obligations.OneResponsePerCommandAndRefusalsChangeNothing := by
  unfold Obligations.OneResponsePerCommandAndRefusalsChangeNothing
  intro s s' hreset hstep
  obtain ⟨hr, -⟩ | ⟨-, i, rest, -, hexec⟩ | ⟨-, cw, rest, -, rfl⟩ := step_cases hstep
  · rw [hreset] at hr; cases hr
  · obtain ⟨r, hout, hsized, hrefused⟩ := exec_answers hexec
    refine ⟨r, hout, hsized, fun hne => ?_⟩
    obtain ⟨hdata, rfl⟩ := hrefused hne
    exact ⟨hdata, rfl, rfl, rfl, rfl, rfl, rfl⟩
  · exact ⟨_, respond_out .., responseSized_error _ (by decide), fun _ => ⟨rfl, rfl, rfl, rfl, rfl, rfl, rfl⟩⟩

end Sys2Proof.Machine
end

section
/-! The response stream is cut one way (R91, R92). -/

namespace Sys2Proof.Safety

open Sys2Proof.Machine

theorem statusCode_injective : Function.Injective Status.code := by
  intro a b
  cases a <;> cases b <;> decide

/-- The first response of a stream and the bytes behind it are determined by the stream: status and `info` are its first
two bytes and give the number of data bytes. -/
theorem responseBytes_append_inj {r r' : Response} {more more' : List Byte} (hr : ResponseSized r)
    (hr' : ResponseSized r') (h : r.bytes ++ more = r'.bytes ++ more') : r = r' ∧ more = more' := by
  obtain ⟨status, info, data⟩ := r
  obtain ⟨status', info', data'⟩ := r'
  simp only [Response.bytes, List.cons_append, List.cons.injEq] at h
  obtain ⟨hcode, rfl, htail⟩ := h
  cases statusCode_injective hcode
  obtain ⟨rfl, hmore⟩ := List.append_inj htail (hr.trans hr'.symm)
  exact ⟨rfl, hmore⟩

/-- Settles O19, by induction on the responses: equal streams start with the same response. -/
theorem responseStreamCutsOneWay : Obligations.ResponseStreamCutsOneWay := by
  unfold Obligations.ResponseStreamCutsOneWay
  intro rs rs' hrs hrs' h
  induction rs generalizing rs' with
  | nil =>
    cases rs' with
    | nil => rfl
    | cons r' rs' => cases h
  | cons r rs ih =>
    cases rs' with
    | nil => cases h
    | cons r' rs' =>
      obtain ⟨hr, htail⟩ := List.forall_mem_cons.1 hrs
      obtain ⟨hr', htail'⟩ := List.forall_mem_cons.1 hrs'
      rw [List.flatMap_cons, List.flatMap_cons] at h
      obtain ⟨rfl, hmore⟩ := responseBytes_append_inj hr hr' h
      rw [ih rs' htail htail' hmore]

end Sys2Proof.Safety
end

section
/-! The pieces `HASH` cuts its message into, and the run of its commands from the stream (R95). -/

namespace Sys2Proof.Machine

theorem pieces_flatten {n : Nat} {data : List Byte} (h : data.length ≤ n) : (pieces n data).flatten = data := by
  induction n generalizing data with
  | zero => rw [List.length_eq_zero_iff.1 (Nat.le_zero.1 h)]; rfl
  | succ n ih =>
    cases data with
    | nil => rfl
    | cons b data =>
      rw [pieces, List.flatten_cons, ih (by rw [List.length_drop, Config.updMax]; omega), List.take_append_drop]

/-- The pieces are as many as full cuts give (log entry 14). -/
theorem pieces_length {n : Nat} {data : List Byte} (h : data.length ≤ n) :
    (pieces n data).length = (data.length + 65534) / 65535 := by
  induction n generalizing data with
  | zero => rw [List.length_eq_zero_iff.1 (Nat.le_zero.1 h)]; rfl
  | succ n ih =>
    cases data with
    | nil => rfl
    | cons b data =>
      rw [pieces, List.length_cons, ih (by rw [List.length_drop, Config.updMax]; omega), List.length_drop,
        Config.updMax, List.length_cons]
      omega

theorem length_le_updMax_of_mem_pieces {n : Nat} {data piece : List Byte} (h : piece ∈ pieces n data) :
    piece.length ≤ Config.updMax := by
  induction n generalizing data with
  | zero => cases h
  | succ n ih =>
    cases data with
    | nil => cases h
    | cons b data =>
      obtain rfl | h := List.mem_cons.1 h
      · exact List.length_take_le _ _
      · exact ih h

/-- A stream can carry every command of `HASH` (R84, R95). -/
theorem wf_of_mem_hashCommands (message : List Byte) : ∀ i ∈ hashCommands message, i.wf = true := by
  intro i hi
  rw [hashCommands, List.mem_append, List.mem_cons, List.mem_map, List.mem_singleton] at hi
  obtain (rfl | ⟨piece, hpiece, rfl⟩) | rfl := hi
  · rfl
  · exact decide_eq_true (length_le_updMax_of_mem_pieces hpiece)
  · rfl

theorem hashCommands_length (message : List Byte) :
    (hashCommands message).length = (message.length + 65534) / 65535 + 2 := by
  rw [hashCommands, List.length_append, List.length_cons, List.length_map, pieces_length le_rfl, List.length_singleton]

end Sys2Proof.Machine

namespace Sys2Proof.Safety

open Sys2Proof.Machine

theorem execAll_input {is : List Instr} {s s' : State} (h : execAll is s = .next s') : s'.input = s.input := by
  induction is generalizing s with
  | nil => cases h; rfl
  | cons i is ih =>
    obtain ⟨u, hu, -, -⟩ := exec_withInput i s
    rw [execAll_cons_of_exec is hu] at h
    exact (ih h).trans (exec_input hu)

/-- Settles O48: the stream runs the commands of `HASH` one after another (O20), and these answer the hash of the pieces
put together (O47), which are the message. -/
theorem hashPseudoCommandAnswersTheHash : Obligations.HashPseudoCommandAnswersTheHash := by
  unfold Obligations.HashPseudoCommandAnswersTheHash
  intro message s hbound hreset hinput n
  have hflat : (pieces message.length message).flatten = message := pieces_flatten le_rfl
  obtain ⟨s', hexec, hmode, hout⟩ := commandSequenceAnswersTheHashOfItsMessage [] 0x40 (pieces message.length message)
    (s.withInput []) (by decide) (by decide) (by decide) (by rw [hflat]; exact hbound)
  rw [hflat, pieces_length le_rfl] at hout
  refine ⟨s', ?_, execAll_input hexec, hmode, hout⟩
  have hs : s.withInput ((hashCommands message).flatMap encode) = s := congrArg s.withInput hinput.symm
  have hrun := run_encoded [] (wf_of_mem_hashCommands message) hreset
  rw [List.append_nil, hs, hashCommands_length] at hrun
  exact hrun.trans hexec

end Sys2Proof.Safety
end

section
/-! SUPPORT. INIT's operands: the parameter word's fields, the two parameter checks and the chaining words (R110, R111,
R231). -/

namespace Sys2Proof.Machine

/-! The three terms of the parameter word, each as the bytes it fills (R111). -/

theorem paramWord_constant_eq_append : 0x01010000#64 = 0x0101#48 ++ 0#8 ++ 0#8 := rfl

theorem klen_term_eq_append (klen : Byte) : klen.setWidth 64 <<< 8 = 0#48 ++ klen ++ 0#8 := by
  ext i hi
  simp only [BitVec.getElem_shiftLeft, BitVec.getElem_setWidth]
  grind

theorem nn_term_eq_append (nn : Byte) : nn.setWidth 64 = 0#48 ++ 0#8 ++ nn :=
  BitVec.setWidth_eq_append (by decide)

/-- The three terms fill different bytes: 0x01, 0x01, `klen` and `nn` stand side by side (R111). -/
theorem paramWord_eq_append (klen nn : Byte) : paramWord klen nn = 0x0101#48 ++ klen ++ nn := by
  have hbytes : (0x0101#48 ++ 0#8 ++ 0#8) ^^^ (0#48 ++ klen ++ 0#8) ^^^ (0#48 ++ 0#8 ++ nn)
      = 0x0101#48 ++ klen ++ nn := by
    simp only [BitVec.xor_append, BitVec.xor_zero, BitVec.zero_xor]
  rw [paramWord, klen_term_eq_append, nn_term_eq_append, paramWord_constant_eq_append]
  exact hbytes

theorem paramWord_eq_or (klen nn : Byte) :
    paramWord klen nn = 0x01010000#64 ||| (klen.setWidth 64 <<< 8) ||| nn.setWidth 64 := by
  have hbytes : (0x0101#48 ++ 0#8 ++ 0#8) ||| (0#48 ++ klen ++ 0#8) ||| (0#48 ++ 0#8 ++ nn)
      = 0x0101#48 ++ klen ++ nn := by
    simp only [BitVec.or_append, BitVec.or_zero, BitVec.zero_or]
  rw [paramWord_eq_append, klen_term_eq_append, nn_term_eq_append, paramWord_constant_eq_append]
  exact hbytes.symm

theorem paramWord_nn_byte (klen nn : Byte) : (paramWord klen nn).extractLsb' 0 8 = nn := by
  rw [paramWord_eq_append]
  exact BitVec.extractLsb'_append_eq_right

theorem paramWord_klen_byte (klen nn : Byte) : (paramWord klen nn).extractLsb' 8 8 = klen := by
  rw [paramWord_eq_append]
  exact (BitVec.extractLsb'_append_eq_of_le (by decide)).trans BitVec.extractLsb'_append_eq_right

/-- Above `nn` and `klen` the parameter word is the constant 0x0101 (R111). -/
theorem paramWord_extractLsb'_of_le (klen nn : Byte) {start : Nat} (len : Nat) (h : 16 ≤ start) :
    (paramWord klen nn).extractLsb' start len = (0x0101#48).extractLsb' (start - 16) len := by
  rw [paramWord_eq_append]
  exact (BitVec.extractLsb'_append_eq_of_le (by omega)).trans (BitVec.extractLsb'_append_eq_of_le (by omega))

theorem paramWord_no_key (nn : Byte) : paramWord 0 nn = 0x01010000#64 ^^^ nn.setWidth 64 := by
  simp only [paramWord, BitVec.ofNat_eq_ofNat, BitVec.setWidth_zero, BitVec.zero_shiftLeft, BitVec.xor_zero]

theorem initialHash_eq (klen nn : Byte) :
    initialHash klen nn
      = #v[IV[0] ^^^ paramWord klen nn, IV[1], IV[2], IV[3], IV[4], IV[5], IV[6], IV[7]] := rfl

/-- InvalidParameter's `info` as a number: 2 for a bad `klen`, 1 for a bad `nn` (R231). -/
theorem paramInfo_eq_ofNat (klen nn : Byte) :
    paramInfo klen nn = BitVec.ofNat 8
      (2 * (if 64 < klen.toNat then 1 else 0) + (if nn.toNat = 0 ∨ 64 < nn.toNat then 1 else 0)) := by
  have hklen : badKlen klen = decide (64 < klen.toNat) := rfl
  have hnn : badNn nn = decide (nn.toNat = 0 ∨ 64 < nn.toNat) := (Bool.decide_or _ _).symm
  simp only [paramInfo, hklen, hnn, decide_eq_true_eq]
  split <;> split <;> rfl

end Sys2Proof.Machine
end

section
/-! SUPPORT. The context an accepted INIT opens: the key's block in the buffer, and each branch as a whole (R110, R112,
R115). -/

namespace Sys2Proof.Machine

/-- What the buffer holds of the key's block, offset by offset (R112). -/
theorem read_keyBlock {klen : Byte} {key : List Byte} (buf : Memory) (hkey : key.length = klen.toNat)
    (hklen : klen.toNat ≤ 64) (a : Nat) :
    Memory.read (keyBlock klen key buf) a
      = if h : a < key.length then key[a] else if a < 128 then 0x00#8 else Memory.read buf a := by
  rw [keyBlock, ← hkey, List.take_length, Config.blockBytes]
  by_cases hin : a < key.length
  · rw [read_memWrite_of_lt _ _ _ _ hin, read_memWrite, dif_pos ⟨Nat.zero_le a, hin⟩, dif_pos hin]
    rfl
  · rw [dif_neg hin, read_memWrite]
    by_cases hblock : a < 128
    · rw [dif_pos (by rw [zeros_length]; omega), zeros_getElem, if_pos hblock]
    · rw [dif_neg (by rw [zeros_length]; omega), read_memWrite_of_ge _ _ _ _ (by omega), if_neg hblock]

/-- The key's block covers the whole buffer: nothing of the old one stays (R65, R112). -/
theorem keyBlock_eq_of_wf {klen : Byte} {key : List Byte} {buf buf' : Memory} (hkey : key.length = klen.toNat)
    (hklen : klen.toNat ≤ 64) (hwf : Memory.wf buf) (hwf' : Memory.wf buf') :
    keyBlock klen key buf = keyBlock klen key buf' := by
  apply wf_ext _ _ (Safety.keyBlock_wf key hklen hwf) (Safety.keyBlock_wf key hklen hwf')
  intro a ha
  simp only [read_keyBlock _ hkey hklen, if_pos ha]

theorem openContext_keyed {klen : Byte} (nn : Byte) (key : List Byte) (s : State) (h : 1 ≤ klen.toNat) :
    openContext klen nn key s = { s with
      h := initialHash klen nn, outlen := outlenOf nn, buf := keyBlock klen key s.buf, c := 128, t := 128#64,
      mode := .streaming } :=
  if_pos (decide_eq_true h)

theorem openContext_no_key {klen : Byte} (nn : Byte) (key : List Byte) (s : State) (h : klen.toNat = 0) :
    openContext klen nn key s = { s with
      h := initialHash klen nn, outlen := outlenOf nn, c := 0, t := 0#64, mode := .streaming } :=
  if_neg (by rw [keyPresent, decide_eq_true_eq]; omega)

/-- Both branches leave the same chaining words (R111, R115). -/
theorem openContext_h (klen nn : Byte) (key : List Byte) (s : State) :
    (openContext klen nn key s).h = initialHash klen nn := by
  unfold openContext
  split <;> rfl

end Sys2Proof.Machine
end

section
/-! INIT (R110 to R116): what it refuses, the context it opens with and without a key, and what stays of the old one. -/

namespace Sys2Proof.Safety

open Sys2Proof.Machine

/-- Settles O21: the operands are not legal, so INIT only answers. -/
theorem initRefusesIllegalLengths : Obligations.InitRefusesIllegalLengths := by
  unfold Obligations.InitRefusesIllegalLengths
  intro klen nn key s hbad
  have hillegal : ¬ legalInit klen nn := by rw [legalInit]; omega
  rw [← paramInfo_eq_ofNat]
  exact execInit_refused key s hillegal

/-- Settles O22: the branch without a key, whole. -/
theorem initWithoutKeyOpensAnEmptyContext : Obligations.InitWithoutKeyOpensAnEmptyContext := by
  unfold Obligations.InitWithoutKeyOpensAnEmptyContext
  intro nn s hnn hnn'
  have hexec : exec (.init 0 nn []) s = _ := execInit_accepted [] s ⟨hnn, hnn', Nat.zero_le 64⟩
  refine ⟨outlenOf nn, outlenOf_val nn hnn', ?_⟩
  rw [hexec, openContext_no_key nn [] s rfl, initialHash_eq, paramWord_no_key]
  rfl

/-- Settles O23: the branch with a key; the buffer is the key's block. -/
theorem initWithKeyPlacesTheKeyBlock : Obligations.InitWithKeyPlacesTheKeyBlock := by
  unfold Obligations.InitWithKeyPlacesTheKeyBlock
  intro klen nn key s hklen hklen' hnn hnn' hkey
  have hexec : exec (.init klen nn key) s = _ := execInit_accepted key s ⟨hnn, hnn', hklen'⟩
  rw [openContext_keyed nn key s hklen] at hexec
  exact ⟨_, hexec, read_keyBlock s.buf hkey hklen', initialHash_eq klen nn, outlenOf_val nn hnn', rfl, rfl, rfl, rfl, rfl,
    rfl, rfl⟩

/-- Settles O24: the parameter word's terms stand side by side below bit 32. -/
theorem parameterWordFieldsAreDisjoint : Obligations.ParameterWordFieldsAreDisjoint := by
  unfold Obligations.ParameterWordFieldsAreDisjoint
  intro klen nn key s hklen hnn hnn'
  have hh : (respond .ok 0x00 [] (openContext klen nn key s)).h[0] = IV[0] ^^^ paramWord klen nn := by
    simp only [respond_h, openContext_h]
    rfl
  have hhigh : (paramWord klen nn).extractLsb' 32 32 = 0#32 := paramWord_extractLsb'_of_le klen nn 32 (by decide)
  refine ⟨_, paramWord klen nn, execInit_accepted key s ⟨hnn, hnn', hklen⟩, hh, rfl, paramWord_eq_or klen nn,
    paramWord_nn_byte klen nn, paramWord_klen_byte klen nn, paramWord_extractLsb'_of_le klen nn 8 (by decide),
    paramWord_extractLsb'_of_le klen nn 8 (by decide), ?_⟩
  rw [hh, BitVec.extractLsb'_xor, hhigh, BitVec.xor_zero]

/-- Settles O25: with a key the whole buffer is written, without one it is not written at all. -/
theorem initForgetsTheOldContext : Obligations.InitForgetsTheOldContext := by
  unfold Obligations.InitForgetsTheOldContext
  intro klen nn key s1 s2 hklen hnn hnn' hkey hwf1 hwf2 hinput hout hreset hdraws
  have hlegal : legalInit klen nn := ⟨hnn, hnn', hklen⟩
  refine ⟨_, _, execInit_accepted key s1 hlegal, execInit_accepted key s2 hlegal, ?_⟩
  by_cases hnone : klen.toNat = 0
  · rw [if_pos hnone, openContext_no_key _ _ _ hnone, openContext_no_key _ _ _ hnone, hinput, hout, hreset, hdraws]
    exact ⟨rfl, fun _ => rfl⟩
  · have hpos : 1 ≤ klen.toNat := Nat.pos_of_ne_zero hnone
    rw [if_neg hnone, openContext_keyed _ _ _ hpos, openContext_keyed _ _ _ hpos, hinput, hout, hreset, hdraws,
      keyBlock_eq_of_wf hkey hklen hwf1 hwf2]
    exact ⟨rfl, fun h => absurd h hnone⟩

/-- FINAL pads nothing when the buffer is full, so its bytes stay (R151). -/
theorem closeContext_buf_of_full {s : State} (h : s.c.val = 128) :
    (closeContext (compress true (padBlock s))).buf = s.buf := by
  rw [closeContext_buf, compress_buf, padBlock_buf, h, Nat.sub_self, zeros, List.replicate_zero, memWrite_nil]

/-- Settles O37: the key's block fills the buffer (O23), so FINAL pads nothing, and the second INIT leaves the buffer
alone (O22). -/
theorem keyBytesStayInTheBuffer : Obligations.KeyBytesStayInTheBuffer := by
  unfold Obligations.KeyBytesStayInTheBuffer
  intro klen nn nn' key s hklen hklen' hnn hnn64 hnn' hnn64' hkey
  obtain ⟨s1, hinit, hread, -, -, hfull, -, hmode, -⟩ :=
    initWithKeyPlacesTheKeyBlock klen nn key s hklen hklen' hnn hnn64 hkey
  have hfinal : exec .final s1 = _ := execFinal_accepted hmode
  obtain ⟨n, -, hplain⟩ :=
    initWithoutKeyOpensAnEmptyContext nn' (closeContext (compress true (padBlock s1))) hnn' hnn64'
  have hrun := (execAll_cons_of_exec [.final, .init 0 nn' []] hinit).trans
    ((execAll_cons_of_exec _ hfinal).trans (execAll_cons_of_exec [] hplain))
  refine ⟨_, hrun, ?_⟩
  rw [closeContext_buf_of_full hfull]
  apply List.ext_getElem (memRead_length _ _ _)
  intro a _ ha
  rw [memRead_getElem, Nat.zero_add, hread, dif_pos ha]

end Sys2Proof.Safety
end

section
/-! UPDATE's loop as R131's byte-at-a-time fold: a copy is the fold over its bytes, and a pass is its flush and its copy. -/

namespace Sys2Proof.Machine

open Sys2Proof.Safety

theorem absorbBytes_nil (s : State) : absorbBytes [] s = s := by
  have hc : advanceFill s.c 0 = s.c := Fin.ext (advanceFill_val _ _ (Nat.le_of_lt_succ s.c.isLt))
  have ht : advanceCounter s.t 0 = s.t := BitVec.add_zero _
  rw [absorbBytes, List.length_nil, hc, ht, memWrite_nil]

/-- Two copies that fit the buffer together are one (R64, R130). -/
theorem absorbBytes_append {bytes more : List Byte} {s : State} (hfit : s.c.val + bytes.length + more.length ≤ 128) :
    absorbBytes (bytes ++ more) s = absorbBytes more (absorbBytes bytes s) := by
  have hc := advanceFill_val s.c bytes.length (by omega)
  have hfill : advanceFill s.c (bytes.length + more.length) = advanceFill (advanceFill s.c bytes.length) more.length :=
    Fin.ext (by rw [advanceFill_val _ _ (by omega), advanceFill_val _ _ (by omega), hc, Nat.add_assoc])
  have hcounter :
      advanceCounter s.t (bytes.length + more.length) = advanceCounter (advanceCounter s.t bytes.length) more.length := by
    rw [advanceCounter, advanceCounter, advanceCounter, BitVec.ofNat_add, BitVec.add_assoc]
  simp only [absorbBytes, List.length_append, hfill, hcounter, hc, memWrite_append]

theorem flushFull_of_fill_lt {s : State} (h : s.c.val < 128) : flushFull s = s :=
  flushFull_room fun hc => absurd (congrArg Fin.val hc) (Nat.ne_of_lt h)

/-- Bytes that fit the buffer are copied one at a time, and nothing is compressed (R130, R131). -/
theorem foldl_absorb1_of_fits {bytes : List Byte} {s : State} (hfit : s.c.val + bytes.length ≤ 128) :
    bytes.foldl absorb1 s = absorbBytes bytes s := by
  induction bytes generalizing s with
  | nil => exact (absorbBytes_nil s).symm
  | cons b bytes ih =>
    rw [List.length_cons] at hfit
    have hc : (absorbBytes [b] s).c.val = s.c.val + 1 := advanceFill_val _ 1 (by omega)
    have hsplit : absorbBytes (b :: bytes) s = absorbBytes bytes (absorbBytes [b] s) :=
      absorbBytes_append (bytes := [b]) (by rw [List.length_singleton]; omega)
    rw [List.foldl_cons, absorb1, flushFull_of_fill_lt (by omega), ih (by omega), hsplit]

/-- The first byte's step flushes a full buffer, so the flush may as well come before it (R131). -/
theorem foldl_absorb1_flushFull {bytes : List Byte} (s : State) (hne : bytes ≠ []) :
    bytes.foldl absorb1 (flushFull s) = bytes.foldl absorb1 s := by
  cases bytes with
  | nil => exact absurd rfl hne
  | cons b bytes =>
    rw [List.foldl_cons, List.foldl_cons, absorb1, absorb1, flushFull_of_fill_lt (flushFull_fill_lt s)]

/-- UPDATE's loop does `ABSORB1` for each byte in order (R130, R131). -/
theorem absorbLoop_eq_foldl {passes : Nat} {data : List Byte} (s : State) (hp : data.length ≤ passes) :
    absorbLoop passes data s = data.foldl absorb1 s := by
  induction passes generalizing data s with
  | zero =>
    rw [List.length_eq_zero_iff.1 (Nat.le_zero.1 hp)]
    rfl
  | succ passes ih =>
    cases data with
    | nil => rfl
    | cons b data =>
      obtain ⟨hpos, hle, hfit⟩ := copyCount_spec (remaining := (b :: data).length) (by simp) (flushFull_fill_lt s)
      rw [absorbLoop]
      generalize copyCount (b :: data).length (flushFull s).c = n at hpos hle hfit ⊢
      have hlen : ((b :: data).take n).length = n := List.length_take_of_le hle
      have hcopy := foldl_absorb1_of_fits (hlen.symm ▸ hfit)
      rw [ih _ (by rw [List.length_drop]; omega), ← hcopy, ← List.foldl_append, List.take_append_drop,
        foldl_absorb1_flushFull s (List.cons_ne_nil b data)]

/-- The count after UPDATE's loop, exact while the sum fits 64 bits (R136, R194). -/
theorem absorbLoop_t_toNat {data : List Byte} {s : State} (ht : s.t.toNat + data.length ≤ 2 ^ 64 - 1) :
    (absorbLoop data.length data s).t.toNat = s.t.toNat + data.length := by
  have hcounter := (absorbLoop_absorbed data s).counter
  rw [List.length_append, memRead_length, BitVec.ofNat_add, ← BitVec.add_assoc, BitVec.sub_add_cancel] at hcounter
  rw [hcounter, BitVec.toNat_add, BitVec.toNat_ofNat]
  omega

theorem exec_update_eq_foldl {data : List Byte} {s : State} (hmode : s.mode = .streaming)
    (ht : s.t.toNat + data.length ≤ 2 ^ 64 - 1) :
    exec (.update data) s = .next (respond .ok 0x00 [] (data.foldl absorb1 s)) := by
  rw [← absorbLoop_eq_foldl s le_rfl]
  exact execUpdate_accepted hmode ht

/-- `ABSORB1` written out (R131). -/
theorem absorb1_eq (s : State) (b : Byte) :
    absorb1 s b =
      let s := if s.c.val = 128 then { s with h := compressWords s.h (loadM s.buf) s.t false, c := 0 } else s
      { s with buf := Memory.write s.buf s.c.val b, c := s.c + 1, t := s.t + 1 } := by
  by_cases hc : s.c.val = 128
  · rw [absorb1, flushFull_full (Fin.ext hc), if_pos hc]
    rfl
  · rw [absorb1, flushFull_room fun h => hc (congrArg Fin.val h), if_neg hc]
    rfl

/-- Settles O29: UPDATE's loop is the fold of `absorb1`, which is the statement's step. -/
theorem updateFoldsAbsorbOneOverItsBytes : Obligations.UpdateFoldsAbsorbOneOverItsBytes := by
  unfold Obligations.UpdateFoldsAbsorbOneOverItsBytes
  intro data s hmode ht
  rw [exec_update_eq_foldl hmode ht, funext₂ absorb1_eq]

/-- Settles O30: the loop leaves the pending bytes and the data absorbed, all their blocks but the last compressed. -/
theorem updateCompressesEveryBlockButTheLast : Obligations.UpdateCompressesEveryBlockButTheLast := by
  unfold Obligations.UpdateCompressesEveryBlockButTheLast
  intro data s hmode ht hne
  refine ⟨_, execUpdate_accepted hmode ht, ?_⟩
  intro pending n
  have habs := absorbLoop_absorbed data s
  have hlen : pending.length = s.c.val + data.length := by rw [List.length_append, memRead_length]
  have hblocks : blocksBeforeLast pending.length = n := by
    simp only [blocksBeforeLast, hlen, n]
    omega
  have hfill := habs.fill_eq
  rw [hlen, fillOf, if_neg (by omega)] at hfill
  rw [Absorbed, hblocks] at habs
  exact ⟨habs.hash, hfill, absorbLoop_t_toNat ht, habs.pending⟩

end Sys2Proof.Machine
end

section
/-! UPDATE commands one after another (R135): each leaves its OK response, and no byte's step looks at those. -/

namespace Sys2Proof.Machine

open Sys2Proof.Safety

/-- The engine with the given responses emitted, and nothing else changed. -/
def State.withOut (s : State) (out : List Response) : State := { s with out := out }

@[simp] theorem withOut_c (s : State) (out : List Response) : (s.withOut out).c = s.c := rfl
@[simp] theorem withOut_t (s : State) (out : List Response) : (s.withOut out).t = s.t := rfl
@[simp] theorem withOut_mode (s : State) (out : List Response) : (s.withOut out).mode = s.mode := rfl
@[simp] theorem withOut_out (s : State) (out : List Response) : (s.withOut out).out = out := rfl
@[simp] theorem withOut_withOut (s : State) (out out' : List Response) :
    (s.withOut out).withOut out' = s.withOut out' := rfl

theorem respond_eq_withOut (status : Status) (info : Byte) (data : List Byte) (s : State) :
    respond status info data s = s.withOut (s.out ++ [⟨status, info, data⟩]) := rfl

theorem absorb1_withOut (s : State) (out : List Response) (b : Byte) :
    absorb1 (s.withOut out) b = (absorb1 s b).withOut out := by
  unfold absorb1 flushFull
  rw [withOut_c]
  split <;> rfl

theorem foldl_absorb1_withOut (data : List Byte) (s : State) (out : List Response) :
    data.foldl absorb1 (s.withOut out) = (data.foldl absorb1 s).withOut out := by
  induction data generalizing s with
  | nil => rfl
  | cons b data ih => rw [List.foldl_cons, absorb1_withOut, ih, List.foldl_cons]

/-- UPDATE commands do `ABSORB1` for all their bytes in order, and each is answered by a plain OK (R131, R135). -/
theorem execAll_updates_eq_foldl {chunks : List (List Byte)} {s : State} (hmode : s.mode = .streaming)
    (ht : s.t.toNat + chunks.flatten.length ≤ 2 ^ 64 - 1) :
    execAll (chunks.map .update) s
      = .next ((chunks.flatten.foldl absorb1 s).withOut (s.out ++ List.replicate chunks.length ⟨.ok, 0x00, []⟩)) := by
  induction chunks generalizing s with
  | nil => rw [List.length_nil, List.replicate_zero, List.append_nil]; rfl
  | cons data chunks ih =>
    rw [List.flatten_cons, List.length_append] at ht
    have hdata : s.t.toNat + data.length ≤ 2 ^ 64 - 1 := by omega
    have hcount := absorbLoop_t_toNat hdata
    obtain ⟨-, hmode', -, hout, -, -⟩ := absorbLoop_frame data.length data s
    rw [absorbLoop_eq_foldl s le_rfl] at hcount hmode' hout
    have hexec := exec_update_eq_foldl hmode hdata
    rw [respond_eq_withOut, hout] at hexec
    rw [List.map_cons, execAll_cons_of_exec _ hexec, ih (by rw [withOut_mode, hmode', hmode])
      (by rw [withOut_t, hcount]; omega), foldl_absorb1_withOut, withOut_withOut, withOut_out, List.flatten_cons,
      List.foldl_append, List.length_cons, List.replicate_succ, List.append_assoc, List.singleton_append]

/-- Settles O32: the UPDATE commands and the one UPDATE are the same fold over the bytes (O29). -/
theorem chunkingNeverChangesTheContext : Obligations.ChunkingNeverChangesTheContext := by
  unfold Obligations.ChunkingNeverChangesTheContext
  intro chunks s hmode ht
  exact ⟨_, exec_update_eq_foldl hmode ht, execAll_updates_eq_foldl hmode ht⟩

end Sys2Proof.Machine
end

section
/-! What UPDATE refuses, and what it answers without data (R133, R136, R138). -/

namespace Sys2Proof.Machine

open Sys2Proof.Safety

/-- Settles O27: a refusal keeps `mode` and `t`, so what comes after it meets the same checks as before it. -/
theorem counterNeverWraps : Obligations.CounterNeverWraps := by
  unfold Obligations.CounterNeverWraps
  intro data s hmode
  refine ⟨fun hover => ?_, fun ht => ?_⟩
  · intro refused
    have hmode' : refused.mode = .streaming := hmode
    refine ⟨execUpdate_overflow hmode hover, fun shorter hshorter => ?_, ?_⟩
    · obtain ⟨s', hexec, -, -, -, -, -, hout, -⟩ := updateLeavesTheRestAlone shorter refused hmode' hshorter
      exact ⟨s', hexec, hout⟩
    · exact ⟨_, _, execFinal_accepted hmode', closeContext_out _, rfl⟩
  · obtain ⟨-, hmode', -, -, -, -⟩ := absorbLoop_frame data.length data s
    exact ⟨_, execUpdate_accepted hmode ht, absorbLoop_t_toNat ht, hmode'.trans hmode⟩

/-- The two codes a StateError can carry for a command that wants STREAMING (R232). -/
theorem modeInfo_of_ne_streaming {m : Mode} (h : m ≠ .streaming) : modeInfo m = if m = .idle then 0x00 else 0x02 := by
  cases m with
  | idle => rfl
  | streaming => exact absurd rfl h
  | finalized => rfl

theorem exec_update_wrong_mode (data : List Byte) {s : State} (h : s.mode ≠ .streaming) :
    exec (.update data) s = .next (respond .stateError (if s.mode = .idle then 0x00 else 0x02) [] s) := by
  rw [← modeInfo_of_ne_streaming h]
  exact execUpdate_wrong_mode data h

/-- Settles O26: the refusal itself, and the step that reads the command off the stream and refuses it. -/
theorem updateIsRefusedOutsideStreaming : Obligations.UpdateIsRefusedOutsideStreaming := by
  unfold Obligations.UpdateIsRefusedOutsideStreaming
  intro data s hmode
  refine ⟨exec_update_wrong_mode data hmode, fun rest hlen hreset hinput => ?_⟩
  have hfetch : fetch s.input = .command (.update data) rest := by
    rw [hinput, fetch_encode_append (by rw [Instr.wf]; exact decide_eq_true hlen)]
  rw [step_of_fetch_command hreset hfetch]
  exact exec_update_wrong_mode data (s := { s with input := rest }) hmode

/-- Settles O28: with no byte to absorb the accepted UPDATE only answers. -/
theorem zeroLengthUpdateIsANoOp : Obligations.ZeroLengthUpdateIsANoOp := by
  unfold Obligations.ZeroLengthUpdateIsANoOp
  intro s
  by_cases hmode : s.mode = .streaming
  · rw [if_pos hmode]
    exact exec_update_eq_foldl hmode (Nat.le_pred_of_lt s.t.isLt)
  · rw [if_neg hmode]
    exact exec_update_wrong_mode [] hmode

end Sys2Proof.Machine
end

section
/-! What FINAL refuses, and the block it pads and compresses (R150 to R154). -/

namespace Sys2Proof.Machine

open Sys2Proof.Safety

/-- The zero padding fills the buffer's offsets from `c` up and nothing else (R151). -/
theorem read_padBlock (s : State) (a : Nat) :
    Memory.read (padBlock s).buf a = if s.c.val ≤ a ∧ a < 128 then 0x00#8 else Memory.read s.buf a := by
  rw [padBlock_buf, Config.blockBytes, read_memWrite]
  by_cases hin : s.c.val ≤ a ∧ a < 128
  · rw [dif_pos (by rw [zeros_length]; omega), zeros_getElem, if_pos hin]
  · rw [dif_neg (by rw [zeros_length]; omega), if_neg hin]

/-- The padded buffer's message words are those of the pending bytes followed by zeros (R151, R171). -/
theorem loadM_padBlock (s : State) :
    loadM (padBlock s).buf = wordsOfBlock (memRead s.buf 0 s.c.val ++ zeros (128 - s.c.val)) := by
  rw [padBlock_buf]
  exact loadM_memWrite_zeros _ _ (Nat.le_of_lt_succ s.c.isLt)

/-- Settles O35: the padding is the only write to the buffer, the compression the only one to `h`. -/
theorem finalCompressesThePaddedBlock : Obligations.FinalCompressesThePaddedBlock := by
  unfold Obligations.FinalCompressesThePaddedBlock
  intro s hmode
  refine ⟨_, execFinal_accepted hmode, ?buffer, ?hash, closeContext_mode _, rfl, rfl, rfl, rfl, rfl, rfl,
    _, closeContext_out _⟩
  case buffer =>
    intro a
    rw [closeContext_buf, compress_buf, read_padBlock]
  case hash => rw [closeContext_h, compress_h, loadM_padBlock, padBlock_h, padBlock_t]

/-- Settles O34: outside STREAMING the response carries the mode's code and is all that FINAL leaves. -/
theorem finalIsRefusedOutsideStreaming : Obligations.FinalIsRefusedOutsideStreaming := by
  unfold Obligations.FinalIsRefusedOutsideStreaming
  intro s hmode
  rw [← modeInfo_of_ne_streaming hmode]
  exact execFinal_wrong_mode hmode

end Sys2Proof.Machine
end

section
/-! SUPPORT. The working vector's words before the rounds (R172, R173, R193), and the fold-back (R177). -/

namespace Sys2Proof.Machine

/-- XOR with the flag's mask word complements on the final block and changes nothing on the others (R173, R193). -/
theorem xor64_finalMask (p : Word) (f : Bool) : xor64 p (finalMask f) = if f then ~~~p else p := by
  cases f with
  | false => exact BitVec.xor_zero
  | true => exact BitVec.xor_allOnes

theorem vinit_get_low (h : Vector Word 8) (i : Nat) (hi : i < 8) : (vinit h)[i] = h[i] :=
  Vector.getElem_append_left hi

theorem vinit_get_high (h : Vector Word 8) (i : Nat) (hi : i < 8) : (vinit h)[8 + i] = IV[i] := by
  rw [vinit, Vector.getElem_append_right _ (Nat.le_add_right 8 i)]
  simp only [Nat.add_sub_cancel_left]

theorem maskV_get_count (t : Word) (f : Bool) (v : Vector Word 16) : (maskV t f v)[12] = v[12] ^^^ t := by
  rw [maskV, Vector.getElem_set_ne _ _ (by decide), Vector.getElem_set_self, xor64]

theorem maskV_get_flag (t : Word) (f : Bool) (v : Vector Word 16) :
    (maskV t f v)[14] = if f then ~~~v[14] else v[14] := by
  rw [maskV, Vector.getElem_set_self, Vector.getElem_set_ne _ _ (by decide), xor64_finalMask]

/-- MASK writes the words 12 and 14 only (R173). -/
theorem maskV_get_of_ne (t : Word) (f : Bool) (v : Vector Word 16) (i : Nat) (hi : i < 16) (h12 : i ≠ 12)
    (h14 : i ≠ 14) : (maskV t f v)[i] = v[i] := by
  rw [maskV, Vector.getElem_set_ne _ _ h14.symm, Vector.getElem_set_ne _ _ h12.symm]

/-- What FOLD leaves in each word of `h` (R177). -/
theorem foldBack_get (h : Vector Word 8) (v : Vector Word 16) (i : Fin 8) :
    (foldBack h v)[i] = h[i] ^^^ v[i.val] ^^^ v[i.val + 8] := by
  simp only [foldBack, Fin.getElem_fin, Vector.getElem_ofFn, xor64]

end Sys2Proof.Machine
end

section
/-! SUPPORT. What a G operation reads and writes (R176, R190), and the rounds as parts of the flattened schedule (R175,
R213, R214). -/

namespace Sys2Proof.Safety

open Sys2Proof.Machine

/-- The frame of G: it writes its four words only (R190). -/
theorem applyG_get_of_notMem {a b c d i : Fin 16} (x y : Word) (v : Vector Word 16) (hi : i ∉ [a, b, c, d]) :
    (applyG a b c d x y v)[i] = v[i] := by
  simp only [List.mem_cons, List.not_mem_nil, or_false, not_or] at hi
  obtain ⟨ha, hb, hc, hd⟩ := hi
  rw [applyG_get, if_neg hd, if_neg hc, if_neg hb, if_neg ha]

/-- The reads of G: what it leaves in a word is the same on vectors that agree there and on its four words (R190). -/
theorem applyG_get_congr (a b c d : Fin 16) (x y : Word) {v w : Vector Word 16} {i : Fin 16}
    (hgroup : ∀ k ∈ [a, b, c, d], v[k] = w[k]) (hi : v[i] = w[i]) :
    (applyG a b c d x y v)[i] = (applyG a b c d x y w)[i] := by
  rw [applyG_get, applyG_get, hgroup a (by simp), hgroup b (by simp), hgroup c (by simp), hgroup d (by simp), hi]

/-- The four indices of G operation `j`, as a list. -/
def groupIndices (j : Nat) : List (Fin 16) :=
  match groupOf j with
  | (a, b, c, d) => [a, b, c, d]

/-- Two G operations of one half round share no index (R176). -/
theorem groupIndices_disjoint : ∀ j k : Fin 8, j.val / 4 = k.val / 4 → j ≠ k →
    (groupIndices j).Disjoint (groupIndices k) := by
  simp only [List.disjoint_left]
  decide

section
variable (m : Vector Word 16) (r : Nat) (v : Vector Word 16) {j k : Nat} {i : Fin 16}

theorem gOperation_get_of_notMem (hi : i ∉ groupIndices j) : (gOperation m r v j)[i] = v[i] :=
  applyG_get_of_notMem _ _ v hi

theorem gOperation_get_congr {v w : Vector Word 16} (hgroup : ∀ k ∈ groupIndices j, v[k] = w[k]) (hi : v[i] = w[i]) :
    (gOperation m r v j)[i] = (gOperation m r w j)[i] :=
  applyG_get_congr _ _ _ _ _ _ hgroup hi

/-- Outside the indices of `k`, operation `k` makes no difference to `j`, before it or after it. -/
theorem gOperation_gOperation_get_of_notMem (hdisjoint : (groupIndices j).Disjoint (groupIndices k))
    (hi : i ∉ groupIndices k) :
    (gOperation m r (gOperation m r v k) j)[i] = (gOperation m r (gOperation m r v j) k)[i] :=
  calc (gOperation m r (gOperation m r v k) j)[i]
    _ = (gOperation m r v j)[i] :=
        gOperation_get_congr m r (fun _ hl => gOperation_get_of_notMem m r v (hdisjoint hl))
          (gOperation_get_of_notMem m r v hi)
    _ = (gOperation m r (gOperation m r v j) k)[i] := (gOperation_get_of_notMem m r _ hi).symm

/-- Operations on disjoint groups commute: every index is outside one of the two groups. -/
theorem gOperation_comm (hdisjoint : (groupIndices j).Disjoint (groupIndices k)) :
    gOperation m r (gOperation m r v k) j = gOperation m r (gOperation m r v j) k := by
  refine Vector.ext fun n hn => ?_
  by_cases hi : ⟨n, hn⟩ ∈ groupIndices k
  · exact (gOperation_gOperation_get_of_notMem m r v hdisjoint.symm (hdisjoint.symm hi)).symm
  · exact gOperation_gOperation_get_of_notMem m r v hdisjoint hi

/-- The operations of one half round may run in any order (R176). -/
theorem foldl_gOperation_perm {half : Nat} {order ops : List Nat} (hperm : order.Perm ops)
    (hops : ∀ j ∈ ops, j < 8 ∧ j / 4 = half) :
    order.foldl (gOperation m r) v = ops.foldl (gOperation m r) v := by
  refine (hperm.symm.foldl_eq' (fun j hj k hk u => ?_) v).symm
  obtain ⟨hj8, hjhalf⟩ := hops j hj
  obtain ⟨hk8, hkhalf⟩ := hops k hk
  by_cases hjk : j = k
  · rw [hjk]
  · have hdisjoint := groupIndices_disjoint ⟨j, hj8⟩ ⟨k, hk8⟩ (hjhalf.trans hkhalf.symm) (Fin.ne_of_val_ne hjk)
    exact (gOperation_comm m r u hdisjoint).symm

/-- A round is its eight G operations in order (R175, R213). -/
theorem roundG_eq_foldl_gOperation : roundG (sigmaRow r) m v = (List.range 8).foldl (gOperation m r) v := rfl

theorem scheduleStep_eight_mul_add (hj : j < 8) : scheduleStep m v (8 * r + j) = gOperation m r v j := by
  rw [scheduleStep, Nat.mul_add_div (by decide), Nat.div_eq_of_lt hj, Nat.add_zero, Nat.mul_add_mod,
    Nat.mod_eq_of_lt hj]

/-- Steps `8r` to `8r + 7` of the schedule are round `r` (R214). -/
theorem foldl_scheduleStep_round :
    ((List.range 8).map (8 * r + ·)).foldl (scheduleStep m) v = roundG (sigmaRow r) m v := by
  rw [List.foldl_map, roundG_eq_foldl_gOperation]
  exact List.foldl_ext _ _ _ fun u j hj => scheduleStep_eight_mul_add m r u (List.mem_range.mp hj)

/-- The first `8n` steps of the schedule are the rounds below `n` (R174, R214). -/
theorem foldl_scheduleStep_eq_foldl_roundG (n : Nat) :
    (List.range (8 * n)).foldl (scheduleStep m) v = (List.range n).foldl (fun u r => roundG (sigmaRow r) m u) v := by
  induction n with
  | zero => rw [Nat.mul_zero, List.range_zero, List.foldl_nil, List.foldl_nil]
  | succ n ih =>
    rw [Nat.mul_succ, List.range_add, List.foldl_append, ih, foldl_scheduleStep_round, List.range_succ,
      List.foldl_concat]

theorem runRounds_eq_foldl_scheduleStep : runRounds m v = (List.range 96).foldl (scheduleStep m) v :=
  (foldl_scheduleStep_eq_foldl_roundG m v Config.rounds).symm

end

end Sys2Proof.Safety
end

section
/-! COMPRESS (R170 to R180): the vector it starts from, its schedule, and the order that is free in it. -/

namespace Sys2Proof.Safety

open Sys2Proof.Machine

/-- Settles O38: MASK writes the words 12 and 14 of what VINIT lays out. -/
theorem workingVectorCarriesCountAndFinalFlag : Obligations.WorkingVectorCarriesCountAndFinalFlag := by
  unfold Obligations.WorkingVectorCarriesCountAndFinalFlag
  intro h t f
  refine ⟨fun i => ?hash, fun i => ?iv, ?count, ?w13, ?flag, ?w15⟩
  case hash =>
    rw [maskV_get_of_ne t f _ i.val (by omega) (by omega) (by omega)]
    exact vinit_get_low h i.val i.isLt
  case iv =>
    rw [maskV_get_of_ne t f _ (8 + i.val) (by omega) (by omega) (by omega)]
    exact vinit_get_high h i.val (by omega)
  case count => rw [maskV_get_count, vinit_get_high h 4 (by decide)]
  case w13 => rw [maskV_get_of_ne t f _ 13 (by decide) (by decide) (by decide), vinit_get_high h 5 (by decide)]
  case flag => rw [maskV_get_flag, vinit_get_high h 6 (by decide)]
  case w15 => rw [maskV_get_of_ne t f _ 15 (by decide) (by decide) (by decide), vinit_get_high h 7 (by decide)]

/-- Settles O39: FOLD reads the vector that the rounds, hence the 96 steps, leave. -/
theorem compressRunsTheFlattenedSchedule : Obligations.CompressRunsTheFlattenedSchedule := by
  unfold Obligations.CompressRunsTheFlattenedSchedule
  intro h m t f i
  rw [compressWords, foldBack_get, runRounds_eq_foldl_scheduleStep]

/-- Settles O40: the groups of a half round are disjoint, so its operations commute. -/
theorem operationsOfOneHalfRoundCommute : Obligations.OperationsOfOneHalfRoundCommute := by
  unfold Obligations.OperationsOfOneHalfRoundCommute
  intro m v r order
  exact ⟨fun hcolumn => foldl_gOperation_perm (half := 0) m r v hcolumn (by decide),
    fun hdiagonal => foldl_gOperation_perm (half := 1) m r v hdiagonal (by decide)⟩

end Sys2Proof.Safety
end

section
/-! G and the word operations it is made of (R190 to R193). -/

namespace Sys2Proof.Machine

/-- Bit `i` of the rotated word, below the seam and above it (R191). -/
theorem getLsbD_rotr64 (x : Word) {n i : Nat} (hn : n < 64) (hi : i < 64) :
    (rotr64 x n).getLsbD i = x.getLsbD ((i + n) % 64) := by
  rw [rotr64_eq_rotateRight x n hn, BitVec.getLsbD_rotateRight, Nat.mod_eq_of_lt hn]
  by_cases hseam : i < 64 - n
  · have hbit : (i + n) % 64 = n + i := by omega
    rw [decide_eq_true hseam, cond_true, hbit]
  · have hbit : (i + n) % 64 = i - (64 - n) := by omega
    rw [decide_eq_false hseam, cond_false, hbit, decide_eq_true hi, Bool.true_and]

theorem toNat_rotr64 (x : Word) (n : Nat) :
    (rotr64 x n).toNat = (x.toNat >>> n) ||| ((x.toNat <<< (64 - n)) % 2 ^ 64) := by
  rw [rotr64, BitVec.toNat_or, BitVec.toNat_ushiftRight, BitVec.toNat_shiftLeft]

/-- On four different indices no write of G covers another, so each of its words is the one `mixG` answers (R190). -/
theorem applyG_get_group {a b c d : Fin 16} (x y : Word) (v : Vector Word 16) (hdistinct : [a, b, c, d].Nodup) :
    ((applyG a b c d x y v)[a], (applyG a b c d x y v)[b], (applyG a b c d x y v)[c], (applyG a b c d x y v)[d])
      = mixG v[a] v[b] v[c] v[d] x y := by
  simp only [List.nodup_cons, List.mem_cons, List.not_mem_nil, or_false, not_or] at hdistinct
  obtain ⟨⟨hab, hac, had⟩, ⟨hbc, hbd⟩, hcd, -⟩ := hdistinct
  simp only [applyG_get, hab, hac, had, hbc, hbd, hcd, if_true, if_false]

/-- Settles O41: the four words are `mixG`'s, whose lines are in the library's operations; G writes no other word. -/
theorem mixingPrimitiveFollowsItsEightLines : Obligations.MixingPrimitiveFollowsItsEightLines := by
  unfold Obligations.MixingPrimitiveFollowsItsEightLines
  intro a b c d x y v hdistinct
  have hgroup := applyG_get_group x y v hdistinct
  simp (disch := decide) only [mixG, add64, xor64, rotr64_eq_rotateRight, Prod.mk.injEq] at hgroup
  obtain ⟨hva, hvb, hvc, hvd⟩ := hgroup
  exact ⟨hva, hvb, hvc, hvd, fun _ hi => Safety.applyG_get_of_notMem x y v hi⟩

/-- Settles O42: the four amounts are below 64, where the rotation moves bits as R191 says. -/
theorem rotationMovesEveryBit : Obligations.RotationMovesEveryBit := by
  unfold Obligations.RotationMovesEveryBit
  intro x n i hn
  have hlt : n < 64 := (by decide : ∀ k ∈ [32, 24, 16, 63], k < 64) n hn
  exact ⟨getLsbD_rotr64 x hlt i.isLt, toNat_rotr64 x n⟩

/-- Settles O43: the model's two operators are the library's addition and exclusive or on 64-bit words. -/
theorem wordAdditionWrapsAndXorIsBitwise : Obligations.WordAdditionWrapsAndXorIsBitwise := by
  unfold Obligations.WordAdditionWrapsAndXorIsBitwise
  intro p q r
  exact ⟨BitVec.toNat_add p q, BitVec.add_comm p q, BitVec.add_assoc p q r, fun _ => BitVec.getLsbD_xor,
    xor64_finalMask p true⟩

end Sys2Proof.Machine
end

section
/-! The message schedule's table SIGMA (R211, R212). -/

namespace Sys2Proof.Machine

/-- No row of the table names a message word twice (R212 (a)). -/
theorem SIGMA_row_nodup : ∀ row : Fin 10, SIGMA[row].toList.Nodup := by decide

/-- Sixteen different numbers below 16 are all of them: each round reads every message word once (R212 (a)). -/
theorem SIGMA_row_perm (row : Fin 10) : SIGMA[row].toList.Perm (List.finRange 16) := by
  have hsub : SIGMA[row].toList.Subperm (List.finRange 16) :=
    (SIGMA_row_nodup row).subperm fun k _ => List.mem_finRange k
  refine hsub.perm_of_length_le ?_
  rw [List.length_finRange, Vector.length_toList]

/-- The rows repeat after ten rounds (R212 (c)). -/
theorem sigmaRow_add_ten (r : Nat) : sigmaRow (r + 10) = sigmaRow r := by
  simp only [sigmaRow, Nat.add_mod_right]

theorem sigmaRow_of_lt {r : Nat} (hr : r < 10) : sigmaRow r = SIGMA[r] := by
  simp only [sigmaRow, Nat.mod_eq_of_lt hr]

/-- Settles O44: the rows are permutations since none repeats a number; rounds 10 and 11 are ten after rounds 0 and 1. -/
theorem sigmaRowsArePermutations : Obligations.SigmaRowsArePermutations := by
  unfold Obligations.SigmaRowsArePermutations
  have hidentity : SIGMA[0].toList = List.finRange 16 := by decide
  exact ⟨SIGMA_row_perm, hidentity, (sigmaRow_add_ten 0).trans (sigmaRow_of_lt (by decide)),
    (sigmaRow_add_ten 1).trans (sigmaRow_of_lt (by decide))⟩

end Sys2Proof.Machine
end

section
/-! The exceptions: the answer to a word of no format, and which command can raise which error (R230 to R236). -/

namespace Sys2Proof.Machine

open Sys2Proof.Safety

/-- The bytes of a word of no format give an illegal header: R88 read byte by byte (R81). -/
theorem decodeHeader_commandWord_eq_illegal {s0 s1 s2 s3 : Byte}
    (h : s3 ∉ [0x01#8, 0x02#8, 0x03#8] ∨ s2 ≠ 0x00#8 ∨ (s3 = 0x03#8 ∧ (s1 ≠ 0x00#8 ∨ s0 ≠ 0x00#8))) :
    decodeHeader (commandWord s0 s1 s2 s3) = .illegal := by
  have h0 := s0.isLt; have h1 := s1.isLt; have h2 := s2.isLt
  rw [decodeHeader_eq_illegal_iff, commandWord_toNat]
  simp only [List.mem_cons, List.not_mem_nil, or_false, ne_eq, ← BitVec.toNat_inj, BitVec.toNat_ofNat] at h
  omega

/-- An illegal header announces no payload, so the word is complete with its four bytes (R88). -/
theorem fetch_cons_of_illegal {s0 s1 s2 s3 : Byte} (rest : List Byte)
    (h : decodeHeader (commandWord s0 s1 s2 s3) = .illegal) :
    fetch (s0 :: s1 :: s2 :: s3 :: rest) = .illegal (commandWord s0 s1 s2 s3) rest := by
  rw [fetch_cons, h]
  exact if_pos (Nat.zero_le rest.length)

/-- Settles O17: the decoder takes the four bytes off as an illegal word, whatever the mode, and its refusal is one
response and nothing else. -/
theorem illegalWordIsAnsweredInEveryMode : Obligations.IllegalWordIsAnsweredInEveryMode := by
  unfold Obligations.IllegalWordIsAnsweredInEveryMode
  intro s s0 s1 s2 s3 rest hreset hinput hword
  have hfetch : fetch s.input = .illegal (commandWord s0 s1 s2 s3) rest := by
    rw [hinput, fetch_cons_of_illegal rest (decodeHeader_commandWord_eq_illegal hword)]
  exact ⟨⟨.illegalCommand, 0x00, []⟩, step_of_fetch_illegal hreset hfetch, rfl, rfl⟩

/-- Settles O45, along the checks each command makes: INIT its operands, UPDATE the mode and then the counter, FINAL the
mode alone. -/
theorem onlyTheseCommandsRaiseTheseErrors : Obligations.OnlyTheseCommandsRaiseTheseErrors := by
  unfold Obligations.OnlyTheseCommandsRaiseTheseErrors
  refine ⟨fun s => ⟨_, _, rfl, respond_out .., rfl⟩, fun i s => ?_⟩
  cases i with
  | init klen nn key =>
    by_cases hlegal : legalInit klen nn
    · obtain ⟨-, -, hout⟩ := openContext_frame klen nn key s
      exact ⟨_, _, execInit_accepted key s hlegal, by rw [respond_out, hout], .inl rfl⟩
    · exact ⟨_, _, execInit_refused key s hlegal, respond_out .., .inr rfl⟩
  | update data =>
    by_cases hmode : s.mode = .streaming
    · rcases Nat.lt_or_ge (2 ^ 64 - 1) (s.t.toNat + data.length) with hover | hfits
      · exact ⟨_, _, execUpdate_overflow hmode hover, respond_out .., .inr (.inr ⟨rfl, hmode⟩)⟩
      · obtain ⟨-, -, -, hout, -, -⟩ := absorbLoop_frame data.length data s
        exact ⟨_, _, execUpdate_accepted hmode hfits, by rw [respond_out, hout], .inl rfl⟩
    · exact ⟨_, _, execUpdate_wrong_mode data hmode, respond_out .., .inr (.inl ⟨rfl, hmode⟩)⟩
  | final =>
    by_cases hmode : s.mode = .streaming
    · exact ⟨_, _, execFinal_accepted hmode, closeContext_out _, .inl rfl⟩
    · exact ⟨_, _, execFinal_wrong_mode hmode, respond_out .., .inr ⟨rfl, hmode⟩⟩

end Sys2Proof.Machine
end

section
/-! Reset (R260), that every complete command finishes (R270), and the protocol of one computation (R263). -/

namespace Sys2Proof.Machine

open Sys2Proof.Safety

/-- Settles O6: the step is the reset event, and what it writes to the buffer is canonical. -/
theorem resetEventDiscardsTheStream : Obligations.ResetEventDiscardsTheStream := by
  unfold Obligations.ResetEventDiscardsTheStream
  intro s hreset
  have hbuf : Memory.wf (takeReset s).buf := takeReset_buf s ▸ freeBuffer_wf s.draws
  exact ⟨takeReset s, step_of_resetIn hreset, takeReset_mode s, takeReset_input s, takeReset_out s,
    takeReset_resetIn s, hbuf⟩

/-- Settles O16: the reset event, the answer to an illegal word and every command's meaning give a next state. -/
theorem noCompleteCommandHangs : Obligations.NoCompleteCommandHangs := by
  unfold Obligations.NoCompleteCommandHangs
  intro s hcomplete
  cases hreset : s.resetIn with
  | true => exact ⟨_, step_of_resetIn hreset⟩
  | false =>
    cases hf : fetch s.input with
    | command i rest =>
      obtain ⟨u, hexec, -, -⟩ := exec_withInput i { s with input := rest }
      exact ⟨u, (step_of_fetch_command hreset hf).trans hexec⟩
    | illegal cw rest => exact ⟨_, step_of_fetch_illegal hreset hf⟩
    | incomplete => exact absurd hf hcomplete

/-- Settles O46, cell by cell: a refusal only adds its response, an accepted INIT opens a context, UPDATE's loop never
writes the mode, and FINAL closes the context. -/
theorem modeFollowsTheProtocolTable : Obligations.ModeFollowsTheProtocolTable := by
  unfold Obligations.ModeFollowsTheProtocolTable
  refine ⟨fun s => ⟨_, _, rfl, respond_out .., respond_mode .., rfl⟩, fun i s => ?_⟩
  cases i with
  | init klen nn key =>
    by_cases hlegal : legalInit klen nn
    · obtain ⟨hopen, -, hout⟩ := openContext_frame klen nn key s
      exact ⟨_, _, execInit_accepted key s hlegal, by rw [respond_out, hout], (if_pos hlegal).mpr ⟨hopen, rfl⟩⟩
    · exact ⟨_, _, execInit_refused key s hlegal, respond_out .., (if_neg hlegal).mpr ⟨respond_mode .., rfl⟩⟩
  | update data =>
    cases hmode : s.mode with
    | streaming =>
      rcases Nat.lt_or_ge (2 ^ 64 - 1) (s.t.toNat + data.length) with hover | hfits
      · exact ⟨_, _, execUpdate_overflow hmode hover, respond_out .., hmode, .inr rfl⟩
      · obtain ⟨-, hkept, -, hout, -, -⟩ := absorbLoop_frame data.length data s
        exact ⟨_, _, execUpdate_accepted hmode hfits, by rw [respond_out, hout], hkept.trans hmode, .inl rfl⟩
    | idle | finalized =>
      exact ⟨_, _, execUpdate_wrong_mode data (by rw [hmode]; decide), respond_out .., hmode, rfl⟩
  | final =>
    cases hmode : s.mode with
    | streaming => exact ⟨_, _, execFinal_accepted hmode, closeContext_out _, closeContext_mode _, rfl⟩
    | idle | finalized =>
      exact ⟨_, _, execFinal_wrong_mode (by rw [hmode]; decide), respond_out .., hmode, rfl⟩

end Sys2Proof.Machine
end
